-- ==== Sys2Proof/Word.lean ====
section
/-! DEFINITION. The word types of the WSPR encoder core: the widths of 00_scope.md R6 and of the ports of
10_state.md R21 and R22. A multi-byte port is one bus whose byte k is at bits [8k+7:8k]; a bit sequence is one bus
whose element i is at bit i (20_memory.md R57). -/

namespace Sys2Proof

/-- A byte is 8 bits (00_scope.md R7). -/
abbrev Byte := BitVec 8

/-- `req_call`: the six callsign bytes (10_state.md R21). -/
abbrev CallBus := BitVec 48

/-- `req_loc`: the four locator bytes (10_state.md R21). -/
abbrev LocBus := BitVec 32

/-- `req_msg`: a packed message of seven bytes (10_state.md R21). -/
abbrev MsgBus := BitVec 56

/-- A sequence of 162 bits, element i at bit i (10_state.md R21, 20_memory.md R57). -/
abbrev BitSeq := BitVec 162

/-- The `result` register, 324 bits (10_state.md R25). -/
abbrev ResultBus := BitVec 324

end Sys2Proof
end

