-- ==== Sys2Proof/Config.lean ====
section
/-! DEFINITION. What an instance of the core fixes (00_scope.md R6, 10_state.md R33) and the free values: what the
spec leaves "any value" (93_implementation_defined.md U5). -/

namespace Sys2Proof

/-- The three readings of `sym[161]` (44_symbol_mapper.md R193). -/
inductive LastSymbolMode where
  | merge
  | keepInterleaved
  | zero
  deriving DecidableEq, Repr

/-- The configuration parameters of one instance (00_scope.md R6, 10_state.md R33). `none` is a parameter that has not
been fixed: using it is refused (60_exceptions.md R247, 93_implementation_defined.md U16).
`waitEdges[op]` is LATENCY(op) - 1, so that every latency is at least 1 (R6). -/
structure Configuration where
  sync : Option BitSeq
  lastSymbolMode : Option LastSymbolMode
  waitEdges : Vector Nat 16
  deriving DecidableEq, Repr

/-- LATENCY(op): the number of edges from acceptance to completion, finite and at least 1 (00_scope.md R6, R28). -/
def Configuration.latency (c : Configuration) (op : BitVec 4) : Nat :=
  c.waitEdges[op.toNat] + 1

/-- A register that the spec leaves unspecified at some moment: after a reset edge, between commands
(10_state.md R27, R29, R35), or before the first reset (70_reset_and_hazards.md R262). -/
inductive FreeRegister where
  | opQ | callLenQ | callQ | locQ | powerQ | charQ | msgQ | bitsQ
  | N | m1 | m | msg | buf | reg0 | reg1 | coded | inter | sym
  | t | k | j | p | i
  | control | done | status | errByte | result
  deriving DecidableEq, Repr

/-- The free values: register `r` holds the value this names when it is left unspecified for the `n`-th time.
It has no body, so no proof can see what it is (assumption log 8). -/
opaque Config.freeNat : FreeRegister → Nat → Nat

end Sys2Proof
end

