-- ==== Sys2Proof/Syntax.lean ====
section
/-! DEFINITION. The syntax of the core's commands: one constructor of `Instr` per row of spec/opcode_table.json, the
tuple of port values that encodes a command (30_encoding.md R70, R79), and the command line a test program writes
(R77). -/

namespace Sys2Proof

/-- A command with the operands it reads (30_encoding.md R71). Every operand has exactly the width of its port
(R72), so a locator of other than four bytes cannot be written (R74). -/
inductive Instr where
  | encode (callLen : Byte) (call : CallBus) (loc : LocBus) (power : Byte)
  | message (callLen : Byte) (call : CallBus) (loc : LocBus) (power : Byte)
  | messageStr (callLen : Byte) (call : CallBus) (loc : LocBus) (power : Byte)
  | encNumStr (char : Byte)
  | encLocChar (char : Byte)
  | encCall (callLen : Byte) (call : CallBus)
  | encM1 (loc : LocBus)
  | encM (loc : LocBus) (power : Byte)
  | conv (msg : MsgBus)
  | interleave (bits : BitSeq)
  | map (bits : BitSeq)
  deriving DecidableEq, Repr

/-- One request: the command code and the operand ports (10_state.md R21, 30_encoding.md R70). The same tuple is what the
captured-input registers hold (10_state.md R27): field `op` is `op_q`, field `callLen` is `call_len_q`, and so on. -/
structure Request where
  op : BitVec 4
  callLen : Byte
  call : CallBus
  loc : LocBus
  power : Byte
  char : Byte
  msg : MsgBus
  bits : BitSeq
  deriving DecidableEq, Repr

/-- Every port 0: what a port holds that a command line leaves out (30_encoding.md R77, R79). -/
def Request.zero : Request :=
  { op := 0, callLen := 0, call := 0, loc := 0, power := 0, char := 0, msg := 0, bits := 0 }

/-- What the host drives on the input ports at one rising edge of `clk` (10_state.md R21). -/
structure Ports where
  rst : Bool
  reqValid : Bool
  req : Request
  deriving DecidableEq, Repr

/-- The operands of a command line, each present or left out (30_encoding.md R77). Strings are lists of bytes; numbers
are as written, not yet checked against the width of their port. -/
structure LineOperands where
  call : Option (List Byte)
  callLen : Option Nat
  loc : Option (List Byte)
  power : Option Nat
  char : Option Byte
  msg : Option (List Byte)
  bits : Option (List Bool)
  deriving DecidableEq, Repr

/-- No operand written. -/
def LineOperands.none : LineOperands :=
  { call := .none, callLen := .none, loc := .none, power := .none, char := .none, msg := .none, bits := .none }

/-- A line of a test program (30_encoding.md R77): a command by its code, a reserved code `OP 0xB`, or `@reset`. -/
inductive CommandLine where
  | command (op : BitVec 4) (operands : LineOperands)
  | reserved (code : Nat)
  | reset
  deriving DecidableEq, Repr

end Sys2Proof
end

