-- ==== Sys2Proof/WellFormed.lean ====
section
/-! DEFINITION. Well-formedness. An `Instr` needs no check: its operands have the widths of their ports by type, and
every value of every operand is legal (30_encoding.md R72, 60_exceptions.md R233). What is checked: a request names a
command and holds 0 on every port that command does not read (R79), and a command line has the form of R77. -/

namespace Sys2Proof

/-- The code is a command code of 30_encoding.md R71, not a reserved one (R75). -/
def isCommandCode (op : BitVec 4) : Bool := op.toNat ≤ 10

/-- Column "operands read" of 30_encoding.md R71: the callsign operands `call_len` and `call`. -/
def readsCall (op : BitVec 4) : Bool := [0, 1, 2, 5].contains op.toNat

/-- Column "operands read" of 30_encoding.md R71: `loc`. -/
def readsLoc (op : BitVec 4) : Bool := [0, 1, 2, 6, 7].contains op.toNat

/-- Column "operands read" of 30_encoding.md R71: `power`. -/
def readsPower (op : BitVec 4) : Bool := [0, 1, 2, 7].contains op.toNat

/-- Column "operands read" of 30_encoding.md R71: `char`. -/
def readsChar (op : BitVec 4) : Bool := [3, 4].contains op.toNat

/-- Column "operands read" of 30_encoding.md R71: `msg`. -/
def readsMsg (op : BitVec 4) : Bool := op.toNat == 8

/-- Column "operands read" of 30_encoding.md R71: `bits`. -/
def readsBits (op : BitVec 4) : Bool := [9, 10].contains op.toNat

/-- A request as 30_encoding.md R79 writes one: a command code, and 0 on every port the command does not read. -/
def Request.wellFormed (r : Request) : Bool :=
  isCommandCode r.op
    && (readsCall r.op || r.callLen == 0)
    && (readsCall r.op || r.call == 0)
    && (readsLoc r.op || r.loc == 0)
    && (readsPower r.op || r.power == 0)
    && (readsChar r.op || r.char == 0)
    && (readsMsg r.op || r.msg == 0)
    && (readsBits r.op || r.bits == 0)

/-- An operand stands in a line exactly when the command reads it, and then it passes its own check
(30_encoding.md R77: "Operands a command does not read are omitted"). -/
def operandFits {α : Type} (reads : Bool) (ok : α → Bool) : Option α → Bool
  | .none => !reads
  | .some v => reads && ok v

/-- `call_len=n` may be left out; where it stands, the command reads the callsign (30_encoding.md R77). An n above 255 makes the
line ill-formed: DESIGN CHOICE, R77 saturates the string's length only and does not say what such an n means (assumption
log 26). -/
def callLenFits (reads : Bool) : Option Nat → Bool
  | .none => true
  | .some n => reads && n < 256

/-- A command line of the form of 30_encoding.md R77. A number that does not fit its port makes the line ill-formed (DESIGN
CHOICE, assumption log 26). -/
def CommandLine.wellFormed : CommandLine → Bool
  | .command op o =>
    isCommandCode op
      && operandFits (readsCall op) (fun _ => true) o.call
      && callLenFits (readsCall op) o.callLen
      && operandFits (readsLoc op) (fun l => l.length == 4) o.loc
      && operandFits (readsPower op) (fun n => n < 256) o.power
      && operandFits (readsChar op) (fun _ => true) o.char
      && operandFits (readsMsg op) (fun l => l.length == 7) o.msg
      && operandFits (readsBits op) (fun l => l.length == 162) o.bits
  | .reserved code => 11 ≤ code && code ≤ 15
  | .reset => true

end Sys2Proof
end

