-- ==== Sys2Proof/Decode.lean ====
section
/-! DEFINITION. Decoding and encoding (30_encoding.md). A command is the tuple of port values (`Request`); as one
number its ports stand in the order of R70, `req_op` at bits [3:0] (assumption log 10). Decoding is total: each of the
16 codes is a command or is rejected as reserved (R75). -/

namespace Sys2Proof

/-- Why a request is rejected by the decoder: its code is reserved (30_encoding.md R75). The block then completes the
command with ILLEGAL_OP (60_exceptions.md R232). -/
inductive DecodeError where
  | reservedOp (op : BitVec 4)
  deriving DecidableEq, Repr

/-- The command codes of 30_encoding.md R71 and the operands each command reads. -/
def decode (r : Request) : Except DecodeError Instr :=
  match r.op.toNat with
  | 0 => .ok (.encode r.callLen r.call r.loc r.power)
  | 1 => .ok (.message r.callLen r.call r.loc r.power)
  | 2 => .ok (.messageStr r.callLen r.call r.loc r.power)
  | 3 => .ok (.encNumStr r.char)
  | 4 => .ok (.encLocChar r.char)
  | 5 => .ok (.encCall r.callLen r.call)
  | 6 => .ok (.encM1 r.loc)
  | 7 => .ok (.encM r.loc r.power)
  | 8 => .ok (.conv r.msg)
  | 9 => .ok (.interleave r.bits)
  | 10 => .ok (.map r.bits)
  | _ => .error (.reservedOp r.op)

/-- The port tuple of a command: its code of 30_encoding.md R71, its operands on their ports, and 0 on every other port
(R79). -/
def encode : Instr → Request
  | .encode n c l p => { Request.zero with op := 0x0, callLen := n, call := c, loc := l, power := p }
  | .message n c l p => { Request.zero with op := 0x1, callLen := n, call := c, loc := l, power := p }
  | .messageStr n c l p => { Request.zero with op := 0x2, callLen := n, call := c, loc := l, power := p }
  | .encNumStr b => { Request.zero with op := 0x3, char := b }
  | .encLocChar b => { Request.zero with op := 0x4, char := b }
  | .encCall n c => { Request.zero with op := 0x5, callLen := n, call := c }
  | .encM1 l => { Request.zero with op := 0x6, loc := l }
  | .encM l p => { Request.zero with op := 0x7, loc := l, power := p }
  | .conv m => { Request.zero with op := 0x8, msg := m }
  | .interleave b => { Request.zero with op := 0x9, bits := b }
  | .map b => { Request.zero with op := 0xA, bits := b }

/-- A request as one word of 326 bits: op [3:0], call_len [11:4], call [59:12], loc [91:60], power [99:92],
char [107:100], msg [163:108], bits [325:164] (the fields of 30_encoding.md R70 in their order; assumption log 10). -/
abbrev CommandWord := BitVec 326

/-- The request that a command word holds. -/
def Request.ofWord (w : CommandWord) : Request :=
  { op := w.extractLsb' 0 4
    callLen := w.extractLsb' 4 8
    call := w.extractLsb' 12 48
    loc := w.extractLsb' 60 32
    power := w.extractLsb' 92 8
    char := w.extractLsb' 100 8
    msg := w.extractLsb' 108 56
    bits := w.extractLsb' 164 162 }

/-- The command word of a request. -/
def Request.toWord (r : Request) : CommandWord :=
  r.bits ++ r.msg ++ r.char ++ r.power ++ r.loc ++ r.call ++ r.callLen ++ r.op

/-- The decoder on a command word; total on all of them. -/
def decodeWord (w : CommandWord) : Except DecodeError Instr := decode (Request.ofWord w)

/-- The command word of an instruction. -/
def encodeWord (i : Instr) : CommandWord := (encode i).toWord

/-- The request given by the low `nbits` bits of `w`, every bit above them 0. -/
def Request.ofTableWord (nbits w : Nat) : Request := Request.ofWord (BitVec.ofNat 326 (w % 2 ^ nbits))

/-- What the decoder reads from an opcode-table word of `nbits` bits; `none` where it rejects. -/
def decodeTableWord (nbits w : Nat) : Option Instr :=
  match decode (Request.ofTableWord nbits w) with
  | .ok i => some i
  | .error _ => none

end Sys2Proof
end

