-- ==== Sys2Proof/Machine/Lanes.lean ====
section
/-! DEFINITION. Reading and building the lanes of a bus (20_memory.md R57): byte k at bits [8k+7:8k], element i of a bit
sequence at bit i, symbol i at bits [2i+1:2i]. -/

namespace Sys2Proof.Machine

/-- The bus of `n` bits whose bit i is `f i`. -/
def bitsOf (f : Nat → Bool) : (n : Nat) → BitVec n
  | 0 => 0#0
  | n + 1 => BitVec.cons (f n) (bitsOf f n)

/-- Byte `k` of a bus. -/
def byteAt {n : Nat} (v : BitVec n) (k : Nat) : Byte := v.extractLsb' (8 * k) 8

/-- Symbol `i` of a bus of symbols. -/
def symbolAt {n : Nat} (v : BitVec n) (i : Nat) : BitVec 2 := v.extractLsb' (2 * i) 2

/-- The bus of `n` bits whose byte k is `f k`. -/
def bytesOf (f : Nat → Byte) (n : Nat) : BitVec n := bitsOf (fun b => (f (b / 8)).getLsbD (b % 8)) n

/-- The bus of `n` bits whose symbol i is `f i`. -/
def symbolsOf (f : Nat → BitVec 2) (n : Nat) : BitVec n := bitsOf (fun b => (f (b / 2)).getLsbD (b % 2)) n

/-- `v[i] <- b`: the bit sequence with element i replaced. -/
def setElement {n : Nat} (v : BitVec n) (i : Nat) (b : Bool) : BitVec n :=
  if b then v ||| BitVec.twoPow n i else v &&& ~~~ BitVec.twoPow n i

end Sys2Proof.Machine
end

