-- ==== Sys2Proof/Machine/Tables.lean ====
section
/-! DEFINITION. The constant tables (10_state.md R32, 20_memory.md R50 to R53). Each is a pure function of its index. -/

namespace Sys2Proof.Machine

/-- `LUT_NUM` (40_value_encoder.md R101): digits give 0..9, letters `'A'..'Z'` give 10..35, space gives 36; every other
byte is invalid. -/
def lutNum (b : Byte) : Bool × BitVec 6 :=
  if 0x30#8 ≤ b ∧ b ≤ 0x39#8 then (true, (b - 0x30#8).setWidth 6)
  else if 0x41#8 ≤ b ∧ b ≤ 0x5A#8 then (true, (b - 0x41#8 + 10#8).setWidth 6)
  else if b = 0x20#8 then (true, 36#6)
  else (false, 0#6)

/-- `LUT_LOC` (40_value_encoder.md R102): letters `'A'..'R'` give 0..17; every other byte is invalid. -/
def lutLoc (b : Byte) : Bool × BitVec 5 :=
  if 0x41#8 ≤ b ∧ b ≤ 0x52#8 then (true, (b - 0x41#8).setWidth 5) else (false, 0#5)

/-- `HEXDIG` (41_message_packer.md R138): the ASCII codes of `0123456789ABCDEF`. -/
def hexDig (d : BitVec 4) : Byte :=
  if d.toNat < 10 then BitVec.ofNat 8 (0x30 + d.toNat) else BitVec.ofNat 8 (0x41 + (d.toNat - 10))

/-- `REV8[j]`, the 8-bit bit reversal (43_channel_interleaver.md R171, R172): bit i of the entry is bit 7 - i of j. -/
def rev8 (j : Byte) : Byte := bitsOf (fun i => j.getLsbD (7 - i)) 8

/-- `POLY0` (42_convolutional_encoder.md R152). -/
def poly0 : BitVec 32 := 0xF2D05351#32

/-- `POLY1` (42_convolutional_encoder.md R152). -/
def poly1 : BitVec 32 := 0xE4613C47#32

/-- The reference `SYNC` vector (44_symbol_mapper.md R192), SYNC[i] at bit i. Bits 12..161 are general knowledge by the
spec's own word (93_implementation_defined.md K3; assumption log 3). -/
def refSync : BitSeq := 0x63580ca0e2cdc9045634955858b340a407a47103#162

end Sys2Proof.Machine
end

