-- ==== Sys2Proof/Machine/State.lean ====
section
/-! DEFINITION. The state of the core: every register the spec names (10_state.md R23 to R30), the configuration of
the instance (R33), and the model's own fields. All of it is plain data. -/

namespace Sys2Proof.Machine

/-- The error kinds of a command (10_state.md R26, 60_exceptions.md R230 to R232). Each is a completion status, not a
machine fault (R247). -/
inductive EncodeError where
  /-- `InvalidChar(byte)`: a byte outside its position's class. -/
  | invalidChar (b : Byte)
  /-- `InvalidCallsign`: `call_len` is not 6. -/
  | invalidCallsign
  /-- `IllegalOp`: the code is reserved. -/
  | illegalOp
  deriving DecidableEq, Repr

/-- The reasons the machine stops with a fault: none. Every error of the block is a response (60_exceptions.md R247), and
where the spec gives no meaning the model refuses (assumption log 15). -/
inductive Fault where
  deriving DecidableEq, Repr

/-- The reasons a step, or a use of the ports by the host, has no meaning. -/
inductive Refusal where
  /-- Raised by `exec` for an instruction without a meaning; no arm does. Safe. -/
  | notModelled (mnemonic : String)
  /-- Raised by `step` at an edge with `rst = 0` before the first reset edge, and by the host's read of the response there
  (70_reset_and_hazards.md R262, U6). Safe: the spec lets nothing be said of such a block. -/
  | beforeFirstReset
  /-- Raised by MAP and ENCODE when `SYNC` or `LAST_SYMBOL_MODE` is used and has not been fixed (60_exceptions.md R247,
  U16). Safe: no value is chosen. -/
  | configurationUnfixed
  /-- Raised by the host's read of the response while `done = 0`, once a reset edge has occurred (70_reset_and_hazards.md R274, U7). Safe. -/
  | staleResponse
  /-- Raised where the host would issue a locator command for a locator shorter than 4 characters
  (70_reset_and_hazards.md R272 H3, U1). Safe. -/
  | locatorTooShort
  /-- Raised where the host presents operand bytes that are not the ones R272 H4 (callsign) or H3 (locator) asks for (U8). Safe. -/
  | operandMispresented
  /-- Raised where a command line has not the form of 30_encoding.md R77. Safe. -/
  | malformedLine
  deriving DecidableEq, Repr

/-- `state` (10_state.md R23): IDLE = 0, BUSY = 1. -/
inductive Control where
  | idle
  | busy
  deriving DecidableEq, Repr

/-- The datapath registers (10_state.md R29) and the sequencing counters (R30), with the ranges the spec gives them. They
are meaningful while a command is in flight only. -/
structure Datapath where
  /-- Call integer, 28 bits. -/
  N : BitVec 28
  /-- Locator index, 15 bits. -/
  m1 : BitVec 15
  /-- Locator-and-power integer, 22 bits. -/
  m : BitVec 22
  /-- Packed message, 7 bytes. -/
  msg : MsgBus
  /-- Message plus four zero flush bytes, 11 bytes. -/
  buf : BitVec 88
  /-- Shift register of generator 0. -/
  reg0 : BitVec 32
  /-- Shift register of generator 1. -/
  reg1 : BitVec 32
  /-- Convolutional encoder output. -/
  coded : BitSeq
  /-- Interleaver output. -/
  inter : BitSeq
  /-- Symbol mapper output, 162 symbols of 2 bits. -/
  sym : BitVec 324
  /-- Input-bit index of the convolutional encoder. -/
  t : Fin 88
  /-- Count of coded bits emitted. -/
  k : Fin 163
  /-- The interleaver's source counter. -/
  j : Fin 255
  /-- The interleaver's count of bits placed. -/
  p : Fin 163
  /-- The symbol mapper's index. -/
  i : Fin 162
  deriving DecidableEq, Repr

/-- The state of one instance of the core. -/
structure State where
  /-- The configuration parameters, fixed for the life of the instance (10_state.md R33; assumption log 1). -/
  config : Configuration
  /-- `state` (10_state.md R23). -/
  control : Control
  /-- `done` (10_state.md R25). -/
  done : Bool
  /-- `status` (10_state.md R25, R26). -/
  status : BitVec 2
  /-- `err_byte` (10_state.md R25). -/
  errByte : Byte
  /-- `result` (10_state.md R25). -/
  result : ResultBus
  /-- The captured-input registers (10_state.md R27). -/
  captured : Request
  /-- The datapath registers and counters (10_state.md R29, R30). -/
  datapath : Datapath
  /-- The model's own: edges of LATENCY still to pass before the completing edge (10_state.md R28; assumption log 2). -/
  wait : Nat
  /-- The model's own: whether a reset edge has occurred (70_reset_and_hazards.md R262; assumption log 14). -/
  hasBeenReset : Bool
  /-- The model's own: what the host drives on the input ports at the coming edges, soonest first (10_state.md R21;
  assumption log 5). -/
  inputs : List Ports
  /-- The model's own: how many times registers have been left unspecified (assumption log 8). -/
  freeCount : Nat
  deriving DecidableEq, Repr

/-- The reference configuration: the `SYNC` table of 44_symbol_mapper.md R192 and MERGE (00_scope.md R6), with LATENCY 1 for
every code, the one abstract completion step of 70_reset_and_hazards.md R275 (assumption logs 2 to 4). -/
def Configuration.reference : Configuration :=
  { sync := some refSync, lastSymbolMode := some .merge, waitEdges := Vector.replicate 16 0 }

/-- Datapath registers all zero: their values in `State.reset`, where the spec gives none (assumption log 7). -/
def Datapath.zero : Datapath :=
  { N := 0, m1 := 0, m := 0, msg := 0, buf := 0, reg0 := 0, reg1 := 0, coded := 0, inter := 0, sym := 0,
    t := 0, k := 0, j := 0, p := 0, i := 0 }

/-- The machine right after reset (10_state.md R35, 70_reset_and_hazards.md R260), in the reference configuration.
The captured-input registers are unspecified after reset; here they are zero (assumption log 6). Nothing is offered on
the ports (assumption log 5). -/
def State.reset : State :=
  { config := Configuration.reference
    control := .idle
    done := false
    status := 0
    errByte := 0
    result := 0
    captured := Request.zero
    datapath := Datapath.zero
    wait := 0
    hasBeenReset := true
    inputs := []
    freeCount := 0 }

end Sys2Proof.Machine
end

