-- ==== Sys2Proof/Machine/Flags.lean ====
section
/-! DEFINITION. The completion status. The block has no flags, condition codes or predicates besides `status` and `done`
(10_state.md R31), so this file holds the encoding of `status` and `err_byte` only. -/

namespace Sys2Proof.Machine

/-- `status = OK` (10_state.md R26). -/
def statusOk : BitVec 2 := 0

/-- The `status` code of an error (10_state.md R26, 60_exceptions.md R236). -/
def statusOf : EncodeError → BitVec 2
  | .invalidChar _ => 1
  | .invalidCallsign => 2
  | .illegalOp => 3

/-- The recorded `err_byte` of an error (60_exceptions.md R230 to R232). -/
def errByteOf : EncodeError → Byte
  | .invalidChar b => b
  | .invalidCallsign => 0
  | .illegalOp => 0

end Sys2Proof.Machine
end

