-- ==== Sys2Proof/Machine/Operands.lean ====
section
/-! DEFINITION. The operand forms: how a character, a callsign and a locator are read from their ports
(40_value_encoder.md R103, 41_message_packer.md R120 to R123 and R127). Every value is a mathematical integer
(00_scope.md R8). -/

namespace Sys2Proof.Machine

/-- `num(b)` (40_value_encoder.md R103). -/
def num (b : Byte) : Except EncodeError Nat :=
  let entry := lutNum b
  if entry.1 then .ok entry.2.toNat else .error (.invalidChar b)

/-- `loc(b)` (40_value_encoder.md R103). -/
def locChar (b : Byte) : Except EncodeError Nat :=
  let entry := lutLoc b
  if entry.1 then .ok entry.2.toNat else .error (.invalidChar b)

/-- `callchar(k, b)` (41_message_packer.md R121): a digit at position 2, a letter or space at positions 3 to 5. -/
def callChar (k : Nat) (b : Byte) : Except EncodeError Nat :=
  match num b with
  | .error e => .error e
  | .ok v =>
    if k = 2 ∧ 9 < v then .error (.invalidChar b)
    else if 3 ≤ k ∧ v < 10 then .error (.invalidChar b)
    else .ok v

/-- A locator digit: `num(b)`, which must give 0..9 (41_message_packer.md R127). -/
def locDigit (b : Byte) : Except EncodeError Nat :=
  match num b with
  | .error e => .error e
  | .ok v => if 9 < v then .error (.invalidChar b) else .ok v

/-- `loc[0..3]` as (a, b, c, d), evaluated in the order 0, 2, 1, 3; the first failure wins (41_message_packer.md R127). -/
def locatorParts (loc : LocBus) : Except EncodeError (Nat × Nat × Nat × Nat) := do
  let a ← locChar (byteAt loc 0)
  let c ← locDigit (byteAt loc 2)
  let b ← locChar (byteAt loc 1)
  let d ← locDigit (byteAt loc 3)
  .ok (a, b, c, d)

end Sys2Proof.Machine
end

