-- ==== Sys2Proof/Machine/Ops.lean ====
section
/-! DEFINITION. The shared operations over the registers: acceptance, completion with a value, completion with an error
(the block's only exception entry), reset, and what an unspecified register holds. There is no return from an error
(60_exceptions.md R238): no handler runs inside the block and the next acceptance clears `done` (R237). -/

namespace Sys2Proof.Machine

/-- The error response (60_exceptions.md R236): `status` and `err_byte` of the error, `result` all zero, `done` 1,
`state` IDLE. It saves nothing else, changes no mode and jumps nowhere. -/
def takeError (e : EncodeError) (s : State) : State :=
  { s with status := statusOf e, errByte := errByteOf e, result := 0, done := true, control := .idle }

/-- Completion with a value (60_exceptions.md R236): `status` OK, `err_byte` 0, the laid-out result, `done` 1, `state`
IDLE. -/
def respondOk (v : ResultBus) (s : State) : State :=
  { s with status := statusOk, errByte := 0, result := v, done := true, control := .idle }

/-- A datapath computation: the datapath it leaves, or the error it raises with the datapath at that point. -/
abbrev Stage := Except (EncodeError × Datapath) Datapath

/-- Completion of a command (10_state.md R28, 60_exceptions.md R236): write the datapath the stages left, then the response,
laid out by `layout` (30_encoding.md R76) where they raised nothing. -/
def finish (r : Stage) (layout : Datapath → ResultBus) (s : State) : Host.Outcome State Fault Refusal :=
  match r with
  | .ok d => .next (respondOk (layout d) { s with datapath := d })
  | .error (e, d) => .next (takeError e { s with datapath := d })

/-- Acceptance of a request (10_state.md R24): capture every operand port, clear `done`, go BUSY. The completing edge is
LATENCY(op) edges later (R28). -/
def accept (r : Request) (s : State) : State :=
  { s with captured := r, done := false, control := .busy, wait := s.config.latency r.op - 1 }

/-- The captured-input registers left unspecified for the n-th time (10_state.md R27, R35). -/
def unspecifiedCapture (n : Nat) : Request :=
  { op := BitVec.ofNat 4 (Config.freeNat .opQ n)
    callLen := BitVec.ofNat 8 (Config.freeNat .callLenQ n)
    call := BitVec.ofNat 48 (Config.freeNat .callQ n)
    loc := BitVec.ofNat 32 (Config.freeNat .locQ n)
    power := BitVec.ofNat 8 (Config.freeNat .powerQ n)
    char := BitVec.ofNat 8 (Config.freeNat .charQ n)
    msg := BitVec.ofNat 56 (Config.freeNat .msgQ n)
    bits := BitVec.ofNat 162 (Config.freeNat .bitsQ n) }

/-- The datapath registers and counters left unspecified for the n-th time (10_state.md R29, R35). -/
def unspecifiedDatapath (n : Nat) : Datapath :=
  { N := BitVec.ofNat 28 (Config.freeNat .N n)
    m1 := BitVec.ofNat 15 (Config.freeNat .m1 n)
    m := BitVec.ofNat 22 (Config.freeNat .m n)
    msg := BitVec.ofNat 56 (Config.freeNat .msg n)
    buf := BitVec.ofNat 88 (Config.freeNat .buf n)
    reg0 := BitVec.ofNat 32 (Config.freeNat .reg0 n)
    reg1 := BitVec.ofNat 32 (Config.freeNat .reg1 n)
    coded := BitVec.ofNat 162 (Config.freeNat .coded n)
    inter := BitVec.ofNat 162 (Config.freeNat .inter n)
    sym := BitVec.ofNat 324 (Config.freeNat .sym n)
    t := Fin.ofNat 88 (Config.freeNat .t n)
    k := Fin.ofNat 163 (Config.freeNat .k n)
    j := Fin.ofNat 255 (Config.freeNat .j n)
    p := Fin.ofNat 163 (Config.freeNat .p n)
    i := Fin.ofNat 162 (Config.freeNat .i n) }

/-- What the end of a command adds to its completion: outside a command the datapath registers are unspecified
(10_state.md R29, 93_implementation_defined.md U5; assumption log 9). -/
def endCommand (s : State) : State :=
  { s with datapath := unspecifiedDatapath s.freeCount, freeCount := s.freeCount + 1 }

/-- A reset edge (70_reset_and_hazards.md R260, R261): the response registers and `state` take their reset values, the
captured-input and datapath registers become unspecified; the configuration is not affected (R263). -/
def resetEdge (s : State) : State :=
  { s with
    control := .idle
    done := false
    status := 0
    errByte := 0
    result := 0
    captured := unspecifiedCapture s.freeCount
    datapath := unspecifiedDatapath s.freeCount
    freeCount := s.freeCount + 1
    wait := 0
    hasBeenReset := true }

/-- The block after power-up, before the first reset: every register is unspecified, `state` included
(70_reset_and_hazards.md R262, R264 steps 1 and 2; assumption log 22). -/
def powerUp (config : Configuration) (inputs : List Ports) (n : Nat) : State :=
  { config := config
    control := if Config.freeNat .control n % 2 = 0 then .idle else .busy
    done := Config.freeNat .done n % 2 = 1
    status := BitVec.ofNat 2 (Config.freeNat .status n)
    errByte := BitVec.ofNat 8 (Config.freeNat .errByte n)
    result := BitVec.ofNat 324 (Config.freeNat .result n)
    captured := unspecifiedCapture n
    datapath := unspecifiedDatapath n
    wait := 0
    hasBeenReset := false
    inputs := inputs
    freeCount := n + 1 }

end Sys2Proof.Machine
end

