-- ==== Sys2Proof/Machine/ConvEncoder.lean ====
section
/-! DEFINITION. convolutional_encoder_rate_half_k32 (42_convolutional_encoder.md): CONV. -/

namespace Sys2Proof.Machine

/-- XOR of bits 0..n-1 of `v`. -/
def parityBelow {w : Nat} (v : BitVec w) : Nat → Bool
  | 0 => false
  | n + 1 => (parityBelow v n).xor (v.getLsbD n)

/-- `parity32(v)` (42_convolutional_encoder.md R152). -/
def parity32 (v : BitVec 32) : Bool := parityBelow v 32

/-- `buf`: the message followed by four zero bytes (42_convolutional_encoder.md R153). -/
def padMessage (msg : MsgBus) : BitVec 88 := msg.setWidth 88

/-- Input bit `u[t] = buf[t div 8][7 - (t mod 8)]` (42_convolutional_encoder.md R153). -/
def inputBit (buf : BitVec 88) (t : Nat) : Bool := (byteAt buf (t / 8)).getLsbD (7 - t % 8)

/-- `{reg[30:0], u}` (42_convolutional_encoder.md R154); the bit shifted out of bit 31 is discarded. -/
def shiftIn (reg : BitVec 32) (u : Bool) : BitVec 32 := (reg.extractLsb' 0 31) ++ (BitVec.ofBool u)

/-- The registers of the encoding loop (42_convolutional_encoder.md R154). -/
structure ConvRegs where
  reg0 : BitVec 32
  reg1 : BitVec 32
  coded : BitSeq
  t : Nat
  k : Nat
  deriving DecidableEq, Repr

/-- The body of the loop for input bit `u` up to its first emission. -/
def convEmit0 (u : Bool) (c : ConvRegs) : ConvRegs :=
  { c with
    reg0 := shiftIn c.reg0 u
    reg1 := shiftIn c.reg1 u
    coded := setElement c.coded c.k (parity32 (shiftIn c.reg0 u &&& poly0))
    k := c.k + 1 }

/-- The second emission of the loop body. -/
def convEmit1 (c : ConvRegs) : ConvRegs :=
  { c with coded := setElement c.coded c.k (parity32 (c.reg1 &&& poly1)), k := c.k + 1 }

/-- The encoding loop (42_convolutional_encoder.md R154) from input bit `c.t` on, `n` bits at most: it exits as soon as
162 coded bits are written. -/
def convLoop (buf : BitVec 88) : (n : Nat) → ConvRegs → ConvRegs
  | 0, c => c
  | n + 1, c =>
    let c0 := convEmit0 (inputBit buf c.t) c
    if c0.k = 162 then c0
    else
      let c1 := convEmit1 c0
      if c1.k = 162 then c1 else convLoop buf n { c1 with t := c1.t + 1 }

/-- The loop from its start: both registers zero, t = 0, k = 0, t up to 87 (42_convolutional_encoder.md R154). Every element
of `coded` is written (R155), so what it held before does not matter (assumption log 13). -/
def convolve (buf : BitVec 88) : ConvRegs :=
  convLoop buf 88 { reg0 := 0, reg1 := 0, coded := 0, t := 0, k := 0 }

/-- The convolutional encoder on the datapath: `buf`, `reg0`, `reg1`, `coded`, `t` and `k` as the loop leaves them. -/
def convStage (msg : MsgBus) (d : Datapath) : Datapath :=
  let c := convolve (padMessage msg)
  { d with
    buf := padMessage msg
    reg0 := c.reg0
    reg1 := c.reg1
    coded := c.coded
    t := Fin.ofNat 88 c.t
    k := Fin.ofNat 163 c.k }

/-- CONV (42_convolutional_encoder.md R156): result[i] = coded[i]. It never fails (R150). -/
def execConv (msg : MsgBus) (s : State) : Host.Outcome State Fault Refusal :=
  finish (.ok (convStage msg s.datapath)) (fun d => d.coded.setWidth 324) s

end Sys2Proof.Machine
end

