-- ==== Sys2Proof/Machine/Interleaver.lean ====
section
/-! DEFINITION. channel_interleaver_bit_reversal (43_channel_interleaver.md): INTERLEAVE. -/

namespace Sys2Proof.Machine

/-- The registers of the interleaving loop (43_channel_interleaver.md R173); `j` is the last index visited. -/
structure InterRegs where
  inter : BitSeq
  j : Nat
  p : Nat
  deriving DecidableEq, Repr

/-- The interleaving loop (43_channel_interleaver.md R173) from index `j` on, `n` indices at most: it exits as soon as 162
bits are placed. -/
def interleaveLoop (coded : BitSeq) : (n : Nat) → (j : Nat) → InterRegs → InterRegs
  | 0, _, c => c
  | n + 1, j, c =>
    let r := (rev8 (BitVec.ofNat 8 j)).toNat
    if r < 162 then
      let c := { inter := setElement c.inter r (coded.getLsbD c.p), j := j, p := c.p + 1 : InterRegs }
      if c.p = 162 then c else interleaveLoop coded n (j + 1) c
    else interleaveLoop coded n (j + 1) { c with j := j }

/-- The loop from its start: p = 0, j from 0 to 254. Every element of `inter` is written exactly once
(43_channel_interleaver.md R174), so what it held before does not matter (assumption log 13). -/
def interleave (coded : BitSeq) : InterRegs := interleaveLoop coded 255 0 { inter := 0, j := 0, p := 0 }

/-- The interleaver on the datapath: `inter`, `j` and `p` as the loop leaves them. -/
def interleaveStage (d : Datapath) : Datapath :=
  let c := interleave d.coded
  { d with inter := c.inter, j := Fin.ofNat 255 c.j, p := Fin.ofNat 163 c.p }

/-- INTERLEAVE (43_channel_interleaver.md R177): `coded <- bits_q`, result[i] = inter[i]. It never fails (R170). -/
def execInterleave (bits : BitSeq) (s : State) : Host.Outcome State Fault Refusal :=
  finish (.ok (interleaveStage { s.datapath with coded := bits })) (fun d => d.inter.setWidth 324) s

end Sys2Proof.Machine
end

