-- ==== Sys2Proof/Machine/MessagePacker.lean ====
section
/-! DEFINITION. message_packer (41_message_packer.md): ENC_CALL, ENC_M1, ENC_M, MESSAGE and MESSAGE_STR. -/

namespace Sys2Proof.Machine

/-- The call integer (41_message_packer.md R122 to R124): the length check, then positions 0..5 in order, then the
running accumulator. -/
def callInteger (callLen : Byte) (call : CallBus) : Except EncodeError Nat :=
  if callLen ≠ 6#8 then .error .invalidCallsign
  else do
    let c0 ← callChar 0 (byteAt call 0)
    let c1 ← callChar 1 (byteAt call 1)
    let c2 ← callChar 2 (byteAt call 2)
    let c3 ← callChar 3 (byteAt call 3)
    let c4 ← callChar 4 (byteAt call 4)
    let c5 ← callChar 5 (byteAt call 5)
    .ok (((((c0 * 36 + c1) * 10 + c2) * 27 + (c3 - 10)) * 27 + (c4 - 10)) * 27 + (c5 - 10))

/-- The locator index (41_message_packer.md R127, R128). -/
def locatorIndex (loc : LocBus) : Except EncodeError Nat :=
  match locatorParts loc with
  | .error e => .error e
  | .ok (a, b, c, d) => .ok ((179 - 10 * a - c) * 180 + 10 * b + d)

/-- The integer m (41_message_packer.md R130). Power is added unchecked. -/
def powerInteger (m1 : Nat) (power : Byte) : Nat := m1 * 128 + power.toNat + 64

/-- The 7-byte packing (41_message_packer.md R132), byte 0 in the lowest lane. -/
def packMessage (n : BitVec 28) (m : BitVec 22) : MsgBus :=
  let msg0 : Byte := n.extractLsb' 20 8
  let msg1 : Byte := n.extractLsb' 12 8
  let msg2 : Byte := n.extractLsb' 4 8
  let msg3 : Byte := n.extractLsb' 0 4 ++ m.extractLsb' 18 4
  let msg4 : Byte := m.extractLsb' 10 8
  let msg5 : Byte := m.extractLsb' 2 8
  let msg6 : Byte := m.extractLsb' 0 2 ++ 0#6
  msg6 ++ msg5 ++ msg4 ++ msg3 ++ msg2 ++ msg1 ++ msg0

/-- Byte `q` of the hexadecimal rendering (41_message_packer.md R137): two digits for each message byte and a space
between two bytes. -/
def hexByte (msg : MsgBus) (q : Nat) : Byte :=
  if q % 3 = 0 then hexDig ((byteAt msg (q / 3)).extractLsb' 4 4)
  else if q % 3 = 1 then hexDig ((byteAt msg (q / 3)).extractLsb' 0 4)
  else 0x20#8

/-- The rendering: 20 ASCII bytes, s[k] in lane k (41_message_packer.md R137, R139). -/
def renderHex (msg : MsgBus) : BitVec 160 := bytesOf (hexByte msg) 160

/-- `N <- …` (41_message_packer.md R124, R125). -/
def callStage (callLen : Byte) (call : CallBus) (d : Datapath) : Stage :=
  match callInteger callLen call with
  | .ok n => .ok { d with N := BitVec.ofNat 28 n }
  | .error e => .error (e, d)

/-- `m1 <- …` (41_message_packer.md R128, R129). -/
def locStage (loc : LocBus) (d : Datapath) : Stage :=
  match locatorIndex loc with
  | .ok m1 => .ok { d with m1 := BitVec.ofNat 15 m1 }
  | .error e => .error (e, d)

/-- `m <- …` (41_message_packer.md R130). -/
def powerStage (power : Byte) (d : Datapath) : Datapath :=
  { d with m := BitVec.ofNat 22 (powerInteger d.m1.toNat power) }

/-- m1, then m (41_message_packer.md R131). -/
def locPowerStage (loc : LocBus) (power : Byte) (d : Datapath) : Stage :=
  match locStage loc d with
  | .ok d => .ok (powerStage power d)
  | .error e => .error e

/-- The MESSAGE computation (41_message_packer.md R133): the callsign completely, then the locator (R134), then the
packing. -/
def packStage (callLen : Byte) (call : CallBus) (loc : LocBus) (power : Byte) (d : Datapath) : Stage :=
  match callStage callLen call d with
  | .error e => .error e
  | .ok d =>
    match locPowerStage loc power d with
    | .error e => .error e
    | .ok d => .ok { d with msg := packMessage d.N d.m }

/-- ENC_CALL (41_message_packer.md R125): result[27:0] = N. -/
def execEncCall (callLen : Byte) (call : CallBus) (s : State) : Host.Outcome State Fault Refusal :=
  finish (callStage callLen call s.datapath) (fun d => d.N.setWidth 324) s

/-- ENC_M1 (41_message_packer.md R129): result[14:0] = m1. -/
def execEncM1 (loc : LocBus) (s : State) : Host.Outcome State Fault Refusal :=
  finish (locStage loc s.datapath) (fun d => d.m1.setWidth 324) s

/-- ENC_M (41_message_packer.md R131): result[21:0] = m. -/
def execEncM (loc : LocBus) (power : Byte) (s : State) : Host.Outcome State Fault Refusal :=
  finish (locPowerStage loc power s.datapath) (fun d => d.m.setWidth 324) s

/-- MESSAGE (41_message_packer.md R133): result[8k+7:8k] = msg[k]. -/
def execMessage (callLen : Byte) (call : CallBus) (loc : LocBus) (power : Byte) (s : State) :
    Host.Outcome State Fault Refusal :=
  finish (packStage callLen call loc power s.datapath) (fun d => d.msg.setWidth 324) s

/-- MESSAGE_STR (41_message_packer.md R139): result[8k+7:8k] = s[k]. -/
def execMessageStr (callLen : Byte) (call : CallBus) (loc : LocBus) (power : Byte) (s : State) :
    Host.Outcome State Fault Refusal :=
  finish (packStage callLen call loc power s.datapath) (fun d => (renderHex d.msg).setWidth 324) s

end Sys2Proof.Machine
end

