-- ==== Sys2Proof/Machine/SymbolMapper.lean ====
section
/-! DEFINITION. symbol_mapper (44_symbol_mapper.md): MAP. -/

namespace Sys2Proof.Machine

/-- The merge of one symbol, `inter[i] * 2 + SYNC[i]` (44_symbol_mapper.md R191). -/
def mergeSymbol (data sync : Bool) : BitVec 2 := BitVec.ofNat 2 (data.toNat * 2 + sync.toNat)

/-- `sym[i]` (44_symbol_mapper.md R194): merged for i = 0..160; `sym[161]` by LAST_SYMBOL_MODE (R193). -/
def symbolOf (mode : LastSymbolMode) (sync inter : BitSeq) (i : Nat) : BitVec 2 :=
  if i < 161 then mergeSymbol (inter.getLsbD i) (sync.getLsbD i)
  else
    match mode with
    | .merge => mergeSymbol (inter.getLsbD i) (sync.getLsbD i)
    | .keepInterleaved => BitVec.ofNat 2 (inter.getLsbD i).toNat
    | .zero => 0

/-- The mapping loop (44_symbol_mapper.md R194): every element of `sym` is written, and index 161 is the last. -/
def mapStage (mode : LastSymbolMode) (sync : BitSeq) (d : Datapath) : Datapath :=
  { d with sym := symbolsOf (symbolOf mode sync d.inter) 324, i := 161 }

/-- The end of MAP and of ENCODE: map with the parameters of the instance; refuse where one has not been fixed
(60_exceptions.md R247). -/
def finishMap (d : Datapath) (s : State) : Host.Outcome State Fault Refusal :=
  match s.config.sync, s.config.lastSymbolMode with
  | some sync, some mode => finish (.ok (mapStage mode sync d)) (fun d => d.sym) s
  | _, _ => .refused .configurationUnfixed

/-- MAP (44_symbol_mapper.md R195): `inter <- bits_q`, result[2i+1:2i] = sym[i]. -/
def execMap (bits : BitSeq) (s : State) : Host.Outcome State Fault Refusal :=
  finishMap { s.datapath with inter := bits } s

end Sys2Proof.Machine
end

