-- ==== Sys2Proof/Machine/Pipeline.lean ====
section
/-! DEFINITION. The whole pipeline (45_pipeline.md): ENCODE. -/

namespace Sys2Proof.Machine

/-- ENCODE (45_pipeline.md R210 to R212): pack, convolve, interleave, map. An error of the packer ends the command before
any later stage (R211). -/
def execEncode (callLen : Byte) (call : CallBus) (loc : LocBus) (power : Byte) (s : State) :
    Host.Outcome State Fault Refusal :=
  match packStage callLen call loc power s.datapath with
  | .error e => finish (.error e) (fun d => d.sym) s
  | .ok d => finishMap (interleaveStage (convStage d.msg d)) s

end Sys2Proof.Machine
end

