-- ==== Sys2Proof/Machine/ValueEncoder.lean ====
section
/-! DEFINITION. value_encoder (40_value_encoder.md): ENC_NUM_STR and ENC_LOC_CHAR. -/

namespace Sys2Proof.Machine

/-- The completion of a command whose value is a small integer and which writes no datapath register. -/
def finishValue (v : Except EncodeError Nat) (s : State) : Host.Outcome State Fault Refusal :=
  match v with
  | .ok n => .next (respondOk (BitVec.ofNat 324 n) s)
  | .error e => .next (takeError e s)

/-- ENC_NUM_STR (40_value_encoder.md R105). -/
def execEncNumStr (char : Byte) (s : State) : Host.Outcome State Fault Refusal := finishValue (num char) s

/-- ENC_LOC_CHAR (40_value_encoder.md R106). -/
def execEncLocChar (char : Byte) (s : State) : Host.Outcome State Fault Refusal := finishValue (locChar char) s

end Sys2Proof.Machine
end

