-- ==== Sys2Proof/Machine/Dispatch.lean ====
section
/-! DEFINITION. One arm per command of spec/opcode_table.json. -/

namespace Sys2Proof.Machine

def exec (i : Instr) (s : State) : Host.Outcome State Fault Refusal :=
  match i with
  | .encode callLen call loc power => Sys2Proof.Machine.execEncode callLen call loc power s
  | .message callLen call loc power => Sys2Proof.Machine.execMessage callLen call loc power s
  | .messageStr callLen call loc power => Sys2Proof.Machine.execMessageStr callLen call loc power s
  | .encNumStr char => Sys2Proof.Machine.execEncNumStr char s
  | .encLocChar char => Sys2Proof.Machine.execEncLocChar char s
  | .encCall callLen call => Sys2Proof.Machine.execEncCall callLen call s
  | .encM1 loc => Sys2Proof.Machine.execEncM1 loc s
  | .encM loc power => Sys2Proof.Machine.execEncM loc power s
  | .conv msg => Sys2Proof.Machine.execConv msg s
  | .interleave bits => Sys2Proof.Machine.execInterleave bits s
  | .map bits => Sys2Proof.Machine.execMap bits s

end Sys2Proof.Machine
end

