-- ==== Sys2Proof/Machine/Clock.lean ====
section
/-! DEFINITION. One rising edge of `clk`: reset, acceptance, waiting, completion (10_state.md R23 to R28,
70_reset_and_hazards.md R260 to R270). -/

namespace Sys2Proof.Machine

/-- Ports at rest: no reset, nothing offered. -/
def quietPorts : Ports := { rst := false, reqValid := false, req := Request.zero }

/-- What the host drives at this edge; at rest where nothing more is listed (assumption log 5). -/
def sampledPorts (s : State) : Ports := s.inputs.headD quietPorts

/-- The state once the ports of this edge have been sampled. -/
def afterSampling (s : State) : State := { s with inputs := s.inputs.tail }

/-- What the end of a command does with the next state of its completion. -/
def onNext (f : State → State) : Host.Outcome State Fault Refusal → Host.Outcome State Fault Refusal
  | .next s => .next (f s)
  | .fault r => .fault r
  | .refused r => .refused r

/-- The completing edge (10_state.md R28): the command in the captured-input registers runs, or completes with ILLEGAL_OP
where its code is reserved (60_exceptions.md R232), and the command ends. -/
def completeEdge (s : State) : Host.Outcome State Fault Refusal :=
  match decode s.captured with
  | .ok i => onNext endCommand (exec i s)
  | .error _ => .next (endCommand (takeError .illegalOp s))

/-- One rising edge with `ports` on the input ports. Reset comes first (70_reset_and_hazards.md R260); before the first reset
nothing else has a meaning (R262). IDLE accepts a valid request (10_state.md R24) or holds every register
(60_exceptions.md R246). BUSY accepts nothing (70_reset_and_hazards.md R270): it waits, then completes (10_state.md R28). -/
def clockEdge (ports : Ports) (s : State) : Host.Outcome State Fault Refusal :=
  if ports.rst then .next (resetEdge s)
  else if s.hasBeenReset then
    match s.control with
    | .idle => if ports.reqValid then .next (accept ports.req s) else .next s
    | .busy =>
      match s.wait with
      | n + 1 => .next { s with wait := n }
      | 0 => completeEdge s
  else .refused .beforeFirstReset

/-- `s` with the request `r` captured as an acceptance leaves it, and the completing edge next (assumption log 10). -/
def withCaptured (s : State) (r : Request) : State :=
  { s with
    captured := r
    control := .busy
    done := false
    wait := 0
    hasBeenReset := true
    inputs := quietPorts :: s.inputs }

end Sys2Proof.Machine
end

