-- ==== Sys2Proof/Machine/Step.lean ====
section
/-! DEFINITION. One step of the machine: one rising edge of `clk` with the ports the host drives at it. -/

namespace Sys2Proof.Machine

/-- One step: sample the ports, then take the edge (10_state.md R21, R24, R28). -/
def step (s : State) : Host.Outcome State Fault Refusal := clockEdge (sampledPorts s) (afterSampling s)

/-- `s` with the command of the opcode-table word `w` in the captured-input registers, in flight, so that the very next step
completes it (assumption log 10). -/
def State.withFetchWord (s : State) (nbits w : Nat) : State := withCaptured s (Request.ofTableWord nbits w)

end Sys2Proof.Machine
end

