-- ==== Sys2Proof/Machine/HostPort.lean ====
section
/-! DEFINITION. The host's side of the ports: the output ports, the read of the response, the host duties of
70_reset_and_hazards.md R272, and the command lines of 30_encoding.md R77 as port values. -/

namespace Sys2Proof.Machine

/-- The output port `req_ready` (10_state.md R22): 1 exactly when `state = IDLE` and `rst = 0`. -/
def reqReady (ports : Ports) (s : State) : Bool := (s.control == .idle) && !ports.rst

/-- The response of the most recently accepted command (10_state.md R22). -/
structure Response where
  status : BitVec 2
  errByte : Byte
  result : ResultBus
  deriving DecidableEq, Repr

/-- The host reads the response (70_reset_and_hazards.md R270, R272 H6). Before the first reset edge the block is unusable and
`done` is unspecified, so the read is refused whatever `done` holds (R262, 93_implementation_defined.md U6; assumption
log 17). While `done = 0` the read is refused, not given the stale value (R274). Reading changes nothing
(20_memory.md R59). -/
def readResponse (s : State) : Except Refusal Response :=
  if !s.hasBeenReset then .error .beforeFirstReset
  else if s.done then .ok { status := s.status, errByte := s.errByte, result := s.result }
  else .error .staleResponse

/-- The callsign operand of a string (30_encoding.md R73, 70_reset_and_hazards.md R272 H4): min(length, 255), and the first 6
characters, zero-filled if there are fewer (R77). -/
def callOperand (callsign : List Byte) : Byte × CallBus :=
  (BitVec.ofNat 8 (min callsign.length 255), bytesOf (fun k => callsign.getD k 0) 48)

/-- The locator operand of a string (30_encoding.md R74): its first 4 characters. A shorter one must not be issued
(70_reset_and_hazards.md R272 H3). -/
def locOperand (locator : List Byte) : Except Refusal LocBus :=
  if locator.length < 4 then .error .locatorTooShort else .ok (bytesOf (fun k => locator.getD k 0) 32)

/-- Duty H4 of 70_reset_and_hazards.md R272: the callsign ports of `r` are those of the string, byte for byte as far as the
string has its first six characters. -/
def callPresented (callsign : List Byte) (r : Request) : Bool :=
  r.callLen == (callOperand callsign).1
    && (List.range (min callsign.length 6)).all (fun k => byteAt r.call k == callsign.getD k 0)

/-- The request a host issues for a station whose strings are `callsign` and `locator`. A host that breaks duty H3 or H4 of
70_reset_and_hazards.md R272 is refused (60_exceptions.md R247, 93_implementation_defined.md U1, U8); operands that the
command does not read are no concern of the duties. -/
def issue (callsign locator : List Byte) (r : Request) : Except Refusal Request :=
  if readsLoc r.op && locator.length < 4 then .error .locatorTooShort
  else if readsLoc r.op && r.loc != bytesOf (fun k => locator.getD k 0) 32 then .error .operandMispresented
  else if readsCall r.op && !callPresented callsign r then .error .operandMispresented
  else .ok r

/-- The request of a command line's operands: the strings by H4 and H3, `call_len=n` in place of the string's length, 0 on
every port left out (30_encoding.md R77). -/
def lineRequest (op : BitVec 4) (o : LineOperands) : Request :=
  let call := callOperand (o.call.getD [])
  { op := op
    callLen := match o.callLen with
      | some n => BitVec.ofNat 8 n
      | none => call.1
    call := call.2
    loc := bytesOf (fun k => (o.loc.getD []).getD k 0) 32
    power := BitVec.ofNat 8 (o.power.getD 0)
    char := o.char.getD 0
    msg := bytesOf (fun k => (o.msg.getD []).getD k 0) 56
    bits := bitsOf (fun k => (o.bits.getD []).getD k false) 162 }

/-- The port values of a command line (30_encoding.md R77, R79): a request offered, or `rst` for one edge. -/
def linePorts (line : CommandLine) : Except Refusal Ports :=
  match line with
  | .command op o =>
    if (o.loc.getD [0, 0, 0, 0]).length < 4 then .error .locatorTooShort
    else if line.wellFormed then .ok { rst := false, reqValid := true, req := lineRequest op o }
    else .error .malformedLine
  | .reserved code =>
    if line.wellFormed then
      .ok { rst := false, reqValid := true, req := { Request.zero with op := BitVec.ofNat 4 code } }
    else .error .malformedLine
  | .reset => .ok { rst := true, reqValid := false, req := Request.zero }

/-- What the host drives for one line: the line's ports, then rest until the command has completed
(70_reset_and_hazards.md R270: the next line is offered only when `req_ready = 1`). -/
def lineInputs (config : Configuration) (line : CommandLine) : Except Refusal (List Ports) :=
  match linePorts line with
  | .error r => .error r
  | .ok ports =>
    if ports.rst then .ok [ports]
    else .ok (ports :: List.replicate (config.latency ports.req.op) quietPorts)

/-- What the host drives for a program, line after line (70_reset_and_hazards.md R276, 95_test_vectors.md section 3). -/
def programInputs (config : Configuration) : List CommandLine → Except Refusal (List Ports)
  | [] => .ok []
  | line :: lines =>
    match lineInputs config line, programInputs config lines with
    | .ok now, .ok later => .ok (now ++ later)
    | .error r, _ => .error r
    | _, .error r => .error r

end Sys2Proof.Machine
end

