-- ==== Sys2Proof/Machine/CommandText.lean ====
section
/-! DEFINITION. Reading a command line from its text (30_encoding.md R77): `MNEMONIC operand=value, …`, `OP 0xB` or
`@reset`. What R77 leaves open of the text is in assumption log 18. -/

namespace Sys2Proof.Machine

/-- The mnemonics of 30_encoding.md R71. -/
def mnemonicCodes : List (List Char × BitVec 4) :=
  [("ENCODE".toList, 0x0), ("MESSAGE".toList, 0x1), ("MESSAGE_STR".toList, 0x2), ("ENC_NUM_STR".toList, 0x3),
   ("ENC_LOC_CHAR".toList, 0x4), ("ENC_CALL".toList, 0x5), ("ENC_M1".toList, 0x6), ("ENC_M".toList, 0x7),
   ("CONV".toList, 0x8), ("INTERLEAVE".toList, 0x9), ("MAP".toList, 0xA)]

/-- A hexadecimal digit. -/
def hexValue (c : Char) : Option Nat :=
  let n := c.toNat
  if 48 ≤ n ∧ n ≤ 57 then some (n - 48)
  else if 65 ≤ n ∧ n ≤ 70 then some (n - 55)
  else if 97 ≤ n ∧ n ≤ 102 then some (n - 87)
  else none

/-- The digits of a number in `base`, read after the digits that gave `acc`. -/
def digitsFrom (base : Nat) : Nat → List Char → Option Nat
  | acc, [] => some acc
  | acc, c :: cs =>
    match hexValue c with
    | some d => if d < base then digitsFrom base (acc * base + d) cs else none
    | none => none

/-- A number: decimal, or hexadecimal after `0x` (30_encoding.md R77). -/
def numberOf : List Char → Option Nat
  | '0' :: 'x' :: c :: cs => digitsFrom 16 0 (c :: cs)
  | c :: cs => digitsFrom 10 0 (c :: cs)
  | [] => none

/-- A character of a quoted value as a byte. For codes 0 to 127 this is ASCII (00_scope.md R11). For codes 128 to 255 the
byte is the code point: DESIGN CHOICE, the spec gives no encoding but ASCII (91_not_in_source.md G2; assumption log 25). -/
def charByte (c : Char) : Option Byte := if c.toNat < 256 then some (BitVec.ofNat 8 c.toNat) else none

/-- The bytes of a quoted string; `\0` stands for the byte 0, as 95_test_vectors.md V-CALL-E9 writes it. -/
def stringBytes : List Char → Option (List Byte)
  | [] => some []
  | '\\' :: '0' :: cs => (stringBytes cs).map (0#8 :: ·)
  | c :: cs =>
    match charByte c, stringBytes cs with
    | some b, some bs => some (b :: bs)
    | _, _ => none

/-- Pairs of hexadecimal digits as bytes: `msg=D5501CE18515C0` (30_encoding.md R77). -/
def hexBytes : List Char → Option (List Byte)
  | [] => some []
  | [_] => none
  | c :: c' :: cs =>
    match hexValue c, hexValue c', hexBytes cs with
    | some d, some d', some bs => some (BitVec.ofNat 8 (16 * d + d') :: bs)
    | _, _, _ => none

/-- Characters `0` and `1` as bits, element 0 first (30_encoding.md R77). -/
def bitChars : List Char → Option (List Bool)
  | [] => some []
  | '0' :: cs => (bitChars cs).map (false :: ·)
  | '1' :: cs => (bitChars cs).map (true :: ·)
  | _ => none

/-- The value of `bits=`, with its two shorthands (30_encoding.md R77). -/
def bitsValue (cs : List Char) : Option (List Bool) :=
  if cs = "ones".toList then some (List.replicate 162 true)
  else if cs = "zeros".toList then some (List.replicate 162 false)
  else bitChars cs

/-- A field is written once. -/
def setOnce {α : Type} (old new : Option α) : Option (Option α) :=
  match old, new with
  | none, some v => some (some v)
  | _, _ => none

/-- `name="string"`. -/
def setString (name cs : List Char) (o : LineOperands) : Option LineOperands :=
  if name = "call".toList then (setOnce o.call (stringBytes cs)).map (fun v => { o with call := v })
  else if name = "loc".toList then (setOnce o.loc (stringBytes cs)).map (fun v => { o with loc := v })
  else none

/-- `char='V'`. -/
def setQuotedChar (name : List Char) (c : Char) (o : LineOperands) : Option LineOperands :=
  if name = "char".toList then (setOnce o.char (charByte c)).map (fun v => { o with char := v }) else none

/-- `name=value` with an unquoted value. -/
def setBare (name cs : List Char) (o : LineOperands) : Option LineOperands :=
  if name = "call_len".toList then (setOnce o.callLen (numberOf cs)).map (fun v => { o with callLen := v })
  else if name = "power".toList then (setOnce o.power (numberOf cs)).map (fun v => { o with power := v })
  else if name = "char".toList then
    match numberOf cs with
    | some n => if n < 256 then (setOnce o.char (some (BitVec.ofNat 8 n))).map (fun v => { o with char := v }) else none
    | none => none
  else if name = "msg".toList then (setOnce o.msg (hexBytes cs)).map (fun v => { o with msg := v })
  else if name = "bits".toList then (setOnce o.bits (bitsValue cs)).map (fun v => { o with bits := v })
  else none

/-- A separator between operands. -/
def isSeparator (c : Char) : Bool := c == ' ' || c == ','

/-- The operands of a line, at most `n` of them. -/
def parseOperands : (n : Nat) → List Char → LineOperands → Option LineOperands
  | 0, cs, o => if (cs.dropWhile isSeparator).isEmpty then some o else none
  | n + 1, cs, o =>
    let cs := cs.dropWhile isSeparator
    let name := cs.takeWhile (· != '=')
    match cs.isEmpty, cs.dropWhile (· != '=') with
    | true, _ => some o
    | false, '=' :: '"' :: rest =>
      match setString name (rest.takeWhile (· != '"')) o, rest.dropWhile (· != '"') with
      | some o, '"' :: rest => parseOperands n rest o
      | _, _ => none
    | false, '=' :: '\'' :: c :: '\'' :: rest =>
      match setQuotedChar name c o with
      | some o => parseOperands n rest o
      | none => none
    | false, '=' :: rest =>
      match setBare name (rest.takeWhile (fun c => !isSeparator c)) o with
      | some o => parseOperands n (rest.dropWhile (fun c => !isSeparator c)) o
      | none => none
    | false, _ => none

/-- A command line from its text (30_encoding.md R77). There are seven operands, so at most seven are read. -/
def parseLine (text : List Char) : Option CommandLine :=
  if text = "@reset".toList then some .reset
  else
    let word := text.takeWhile (· != ' ')
    let rest := text.dropWhile (· != ' ')
    if word = "OP".toList then (numberOf (rest.dropWhile isSeparator)).map CommandLine.reserved
    else
      match mnemonicCodes.find? (fun entry => entry.1 = word) with
      | some entry => (parseOperands 7 rest LineOperands.none).map (CommandLine.command entry.2)
      | none => none

end Sys2Proof.Machine
end

