-- ==== Sys2Proof/Safety.lean ====
section
/-! DEFINITION. What counts as a good state and a run, in the terms the statements use. -/

namespace Sys2Proof.Machine

/-- `k` steps from `s`. -/
def run : Nat → State → Host.Outcome State Fault Refusal
  | 0, s => .next s
  | k + 1, s =>
    match step s with
    | .next s' => run k s'
    | .fault r => .fault r
    | .refused r => .refused r

/-- `t` shows the same response as `s`: `done`, `status`, `err_byte` and `result` (10_state.md R22). -/
def sameResponse (s t : State) : Prop :=
  t.done = s.done ∧ t.status = s.status ∧ t.errByte = s.errByte ∧ t.result = s.result

/-- The response registers hold a legal response (10_state.md R25): `result` all zero when `status` is not OK, `err_byte`
nonzero only when `status` is INVALID_CHAR. -/
def legalResponse (s : State) : Prop := (s.status ≠ 0 → s.result = 0) ∧ (s.status ≠ 1 → s.errByte = 0)

/-- `done` is 0 while a command is in flight (10_state.md R24, R34). -/
def doneOnlyIdle (s : State) : Prop := s.control = .busy → s.done = false

/-- The response is that of the captured command: where `done` is 1, completing the captured command again gives the same
response (10_state.md R24, R28, 70_reset_and_hazards.md R270). -/
def answersCaptured (s : State) : Prop :=
  s.done = true → ∃ t, completeEdge s = .next t ∧ sameResponse s t

/-- The invariant of the response registers, once a reset edge has occurred. -/
def ResponseInv (s : State) : Prop :=
  s.hasBeenReset = true → legalResponse s ∧ doneOnlyIdle s ∧ answersCaptured s

end Sys2Proof.Machine
end

