-- ==== Sys2Proof/Certificates/Slice0/Obligations.lean ====
section
/-! DEFINITION. The statements for the provers. What a statement needs to say the spec's rules is written from the spec in
`Sys2Proof.Spec`, not taken from the model's tables. -/

namespace Sys2Proof.Spec

open Sys2Proof.Machine

/-- The state after a command has completed (60_exceptions.md R236): the response registers, `done`, `state` and the
datapath are as given, and EVERY other field is as in `s`. -/
def answered (s : State) (d : Datapath) (status : BitVec 2) (errByte : Byte) (result : ResultBus) : State :=
  { s with status := status, errByte := errByte, result := result, done := true, control := .idle, datapath := d }

/-- `LUT_NUM` as 40_value_encoder.md R101 lists it: byte `b` is valid with value `v`. -/
def alnum (b : Byte) (v : Nat) : Prop :=
  (0x30 ≤ b.toNat ∧ b.toNat ≤ 0x39 ∧ v = b.toNat - 0x30) ∨
  (0x41 ≤ b.toNat ∧ b.toNat ≤ 0x5A ∧ v = b.toNat - 0x41 + 10) ∨
  (b.toNat = 0x20 ∧ v = 36)

/-- `LUT_LOC` as 40_value_encoder.md R102 lists it. -/
def locLetter (b : Byte) (v : Nat) : Prop := 0x41 ≤ b.toNat ∧ b.toNat ≤ 0x52 ∧ v = b.toNat - 0x41

/-- The class of callsign position `k` (41_message_packer.md R120): byte `b` is in it with value `v`. -/
def callClass (k : Nat) (b : Byte) (v : Nat) : Prop := alnum b v ∧ (k = 2 → v ≤ 9) ∧ (3 ≤ k → 10 ≤ v)

/-- The class of locator position `k` (41_message_packer.md R127). -/
def locClass (k : Nat) (b : Byte) (v : Nat) : Prop := if k < 2 then locLetter b v else alnum b v ∧ v ≤ 9

/-- An accepted callsign operand with the values `c 0` to `c 5`. -/
def goodCall (n : Byte) (call : CallBus) (c : Nat → Nat) : Prop :=
  n = 6#8 ∧ ∀ k, k < 6 → callClass k (byteAt call k) (c k)

/-- An accepted locator operand with the values `l 0` to `l 3`. -/
def goodLoc (loc : LocBus) (l : Nat → Nat) : Prop := ∀ k, k < 4 → locClass k (byteAt loc k) (l k)

/-- The callsign operand fails with `status` and `errByte`: wrong length, or the first position outside its class, in the
order 0..5 (41_message_packer.md R122, R123; 60_exceptions.md R234). -/
def callFails (n : Byte) (call : CallBus) (status : BitVec 2) (errByte : Byte) : Prop :=
  (n ≠ 6#8 ∧ status = 2#2 ∧ errByte = 0#8) ∨
  (n = 6#8 ∧ ∃ k, k < 6 ∧ (∀ j, j < k → ∃ v, callClass j (byteAt call j) v) ∧
    (¬ ∃ v, callClass k (byteAt call k) v) ∧ status = 1#2 ∧ errByte = byteAt call k)

/-- The order in which locator positions are checked: 0, 2, 1, 3 (41_message_packer.md R127). -/
def locOrder (n : Nat) : Nat := [0, 2, 1, 3].getD n 0

/-- The locator operand fails with `errByte`: the first position outside its class in the order 0, 2, 1, 3. -/
def locFails (loc : LocBus) (errByte : Byte) : Prop :=
  ∃ n, n < 4 ∧ (∀ j, j < n → ∃ v, locClass (locOrder j) (byteAt loc (locOrder j)) v) ∧
    (¬ ∃ v, locClass (locOrder n) (byteAt loc (locOrder n)) v) ∧ errByte = byteAt loc (locOrder n)

/-- The call integer N of the six values (41_message_packer.md R124). -/
def callInt (c : Nat → Nat) : Nat :=
  ((((c 0 * 36 + c 1) * 10 + c 2) * 27 + (c 3 - 10)) * 27 + (c 4 - 10)) * 27 + (c 5 - 10)

/-- The locator index m1 of the four values (41_message_packer.md R128). -/
def locIndex (l : Nat → Nat) : Nat := (179 - 10 * l 0 - l 2) * 180 + 10 * l 1 + l 3

/-- The integer m (41_message_packer.md R130). -/
def powerInt (m1 power : Nat) : Nat := m1 * 128 + power + 64

/-- Byte `k` of the packed message of N and m (41_message_packer.md R132). -/
def packedByte (N m : Nat) (k : Nat) : Nat :=
  [N / 2 ^ 20 % 256, N / 2 ^ 12 % 256, N / 2 ^ 4 % 256, N % 16 * 16 + m / 2 ^ 18 % 16, m / 2 ^ 10 % 256,
    m / 2 ^ 2 % 256, m % 4 * 64].getD k 0

/-- The ASCII code of a hexadecimal digit (41_message_packer.md R138). -/
def hexCode (d : Nat) : Nat := if d < 10 then 0x30 + d else 0x41 + (d - 10)

/-- Character `q` of the hexadecimal text of the packed message (41_message_packer.md R137). -/
def textByte (N m : Nat) (q : Nat) : Nat :=
  if q % 3 = 0 then hexCode (packedByte N m (q / 3) / 16)
  else if q % 3 = 1 then hexCode (packedByte N m (q / 3) % 16)
  else 0x20

/-- XOR of `f 0` to `f (n - 1)`. -/
def xorBelow (f : Nat → Bool) : Nat → Bool
  | 0 => false
  | n + 1 => (xorBelow f n).xor (f n)

/-- The closed form of a coded bit (42_convolutional_encoder.md R157): XOR over i = 0..min(t, 31) of poly[i] AND u[t - i]. -/
def tap (poly : Nat) (u : Nat → Bool) (t : Nat) : Bool :=
  xorBelow (fun i => poly.testBit i && u (t - i)) (min t 31 + 1)

/-- Input bit t of a message: MSB first, byte by byte, then zeros (42_convolutional_encoder.md R153). -/
def messageBit (msg : MsgBus) (t : Nat) : Bool := decide (t < 56) && msg.getLsbD (8 * (t / 8) + (7 - t % 8))

/-- Input bit t of the message of N and m: N[27] first, m[0] the 50th, then zeros (20_memory.md R56). -/
def recordBit (N m t : Nat) : Bool :=
  if t < 28 then N.testBit (27 - t) else if t < 50 then m.testBit (49 - t) else false

/-- Symbol `i` for data bit `data` (44_symbol_mapper.md R193, R194). -/
def symbol (mode : LastSymbolMode) (sync : BitSeq) (i : Nat) (data : Bool) : BitVec 2 :=
  if i = 161 then
    match mode with
    | .merge => BitVec.ofNat 2 (data.toNat * 2 + (sync.getLsbD 161).toNat)
    | .keepInterleaved => BitVec.ofNat 2 data.toNat
    | .zero => 0
  else BitVec.ofNat 2 (data.toNat * 2 + (sync.getLsbD i).toNat)

/-- PERM, as 43_channel_interleaver.md R175 lists it: coded bit p goes to output position PERM[p]. -/
def permTable : List Nat :=
  [0, 128, 64, 32, 160, 96, 16, 144, 80, 48, 112, 8, 136, 72, 40, 104, 24, 152, 88, 56]
    ++ [120, 4, 132, 68, 36, 100, 20, 148, 84, 52, 116, 12, 140, 76, 44, 108, 28, 156, 92, 60]
    ++ [124, 2, 130, 66, 34, 98, 18, 146, 82, 50, 114, 10, 138, 74, 42, 106, 26, 154, 90, 58]
    ++ [122, 6, 134, 70, 38, 102, 22, 150, 86, 54, 118, 14, 142, 78, 46, 110, 30, 158, 94, 62]
    ++ [126, 1, 129, 65, 33, 161, 97, 17, 145, 81, 49, 113, 9, 137, 73, 41, 105, 25, 153, 89]
    ++ [57, 121, 5, 133, 69, 37, 101, 21, 149, 85, 53, 117, 13, 141, 77, 45, 109, 29, 157, 93]
    ++ [61, 125, 3, 131, 67, 35, 99, 19, 147, 83, 51, 115, 11, 139, 75, 43, 107, 27, 155, 91]
    ++ [59, 123, 7, 135, 71, 39, 103, 23, 151, 87, 55, 119, 15, 143, 79, 47, 111, 31, 159, 95]
    ++ [63, 127]

/-- INV, as 43_channel_interleaver.md R176 lists it: output position q takes coded bit INV[q]. -/
def invTable : List Nat :=
  [0, 81, 41, 122, 21, 102, 61, 142, 11, 92, 51, 132, 31, 112, 71, 152, 6, 87, 46, 127]
    ++ [26, 107, 66, 147, 16, 97, 56, 137, 36, 117, 76, 157, 3, 84, 44, 125, 24, 105, 64, 145]
    ++ [14, 95, 54, 135, 34, 115, 74, 155, 9, 90, 49, 130, 29, 110, 69, 150, 19, 100, 59, 140]
    ++ [39, 120, 79, 160, 2, 83, 43, 124, 23, 104, 63, 144, 13, 94, 53, 134, 33, 114, 73, 154]
    ++ [8, 89, 48, 129, 28, 109, 68, 149, 18, 99, 58, 139, 38, 119, 78, 159, 5, 86, 45, 126]
    ++ [25, 106, 65, 146, 15, 96, 55, 136, 35, 116, 75, 156, 10, 91, 50, 131, 30, 111, 70, 151]
    ++ [20, 101, 60, 141, 40, 121, 80, 161, 1, 82, 42, 123, 22, 103, 62, 143, 12, 93, 52, 133]
    ++ [32, 113, 72, 153, 7, 88, 47, 128, 27, 108, 67, 148, 17, 98, 57, 138, 37, 118, 77, 158]
    ++ [4, 85]

/-- PERM[p]. -/
def perm (p : Nat) : Nat := permTable.getD p 0

/-- INV[q]. -/
def inv (q : Nat) : Nat := invTable.getD q 0

/-- The two requests have the same code and agree on every port that the command of that code reads
(30_encoding.md R71, column "operands read"). -/
def agreeOnRead (r r' : Request) : Prop :=
  r'.op = r.op ∧
  (r.op.toNat ∈ [0, 1, 2, 5] → r'.callLen = r.callLen ∧ r'.call = r.call) ∧
  (r.op.toNat ∈ [0, 1, 2, 6, 7] → r'.loc = r.loc) ∧
  (r.op.toNat ∈ [0, 1, 2, 7] → r'.power = r.power) ∧
  (r.op.toNat ∈ [3, 4] → r'.char = r.char) ∧
  (r.op.toNat = 8 → r'.msg = r.msg) ∧
  (r.op.toNat ∈ [9, 10] → r'.bits = r.bits)

/-- Bytes of an ASCII string on a bus of `n` bits, character k in lane k. -/
def text (n : Nat) (cs : List Nat) : BitVec n := bytesOf (fun k => BitVec.ofNat 8 (cs.getD k 0)) n

/-- The callsign ports of `r` are those that duty H4 asks for (70_reset_and_hazards.md R272): `call_len` is min(length, 255),
and the bytes are the first 6 characters, as many as the string has. -/
def callAsAsked (callsign : List Byte) (r : Request) : Prop :=
  r.callLen.toNat = min callsign.length 255 ∧
    ∀ k, k < 6 → k < callsign.length → byteAt r.call k = callsign.getD k 0

/-- The locator port of `r` holds the first 4 characters (70_reset_and_hazards.md R272 H3, 30_encoding.md R74). -/
def locAsAsked (locator : List Byte) (r : Request) : Prop :=
  4 ≤ locator.length ∧ ∀ k, k < 4 → byteAt r.loc k = locator.getD k 0

end Sys2Proof.Spec

open Sys2Proof Sys2Proof.Machine Sys2Proof.Spec

/-! ### value_encoder -/

/-- 40_value_encoder.md R105. -/
def Obligations.EncNumStrFollowsItsRule : Prop :=
  (∀ r : Request, r.op = 3#4 → decode r = .ok (.encNumStr r.char)) ∧
  ∀ (s : State) (b : Byte),
    (∀ v, alnum b v → exec (.encNumStr b) s = .next (answered s s.datapath 0 0 (BitVec.ofNat 324 v))) ∧
    ((¬ ∃ v, alnum b v) → exec (.encNumStr b) s = .next (answered s s.datapath 1 b 0))

/-- 40_value_encoder.md R106. -/
def Obligations.EncLocCharFollowsItsRule : Prop :=
  (∀ r : Request, r.op = 4#4 → decode r = .ok (.encLocChar r.char)) ∧
  ∀ (s : State) (b : Byte),
    (∀ v, locLetter b v → exec (.encLocChar b) s = .next (answered s s.datapath 0 0 (BitVec.ofNat 324 v))) ∧
    ((¬ ∃ v, locLetter b v) → exec (.encLocChar b) s = .next (answered s s.datapath 1 b 0))

/-! ### message_packer -/

/-- 41_message_packer.md R125: the value, the length error, and the lowest position outside its class. -/
def Obligations.EncCallFollowsItsRule : Prop :=
  (∀ r : Request, r.op = 5#4 → decode r = .ok (.encCall r.callLen r.call)) ∧
  ∀ (s : State) (n : Byte) (call : CallBus),
    (∀ c, goodCall n call c → exec (.encCall n call) s =
      .next (answered s { s.datapath with N := BitVec.ofNat 28 (callInt c) } 0 0 (BitVec.ofNat 324 (callInt c)))) ∧
    (∀ st e, callFails n call st e → ∃ d, exec (.encCall n call) s = .next (answered s d st e 0))

/-- 41_message_packer.md R122, for every command that reads the callsign. -/
def Obligations.WrongLengthIsInvalidCallsign : Prop :=
  ∀ (s : State) (n : Byte) (call : CallBus) (loc : LocBus) (p : Byte) (i : Instr), n ≠ 6#8 →
    i ∈ [Instr.encCall n call, .message n call loc p, .messageStr n call loc p, .encode n call loc p] →
    ∃ d, exec i s = .next (answered s d 2 0 0)

/-- 41_message_packer.md R126: N is in range for every accepted callsign, and `"  9   "` reaches the maximum. -/
def Obligations.CallIntegerRange : Prop :=
  (∀ (s t : State) (n : Byte) (call : CallBus), exec (.encCall n call) s = .next t → t.status = 0#2 →
    t.result.toNat ≤ 262374389 ∧ t.result.toNat < 2 ^ 28) ∧
  ∀ s : State, ∃ d, exec (.encCall 6#8 (text 48 [0x20, 0x20, 0x39, 0x20, 0x20, 0x20])) s =
    .next (answered s d 0 0 262374389#324)

/-- 41_message_packer.md R129: the value, and the first failing position in the order 0, 2, 1, 3. -/
def Obligations.EncM1FollowsItsRule : Prop :=
  (∀ r : Request, r.op = 6#4 → decode r = .ok (.encM1 r.loc)) ∧
  ∀ (s : State) (loc : LocBus),
    (∀ l, goodLoc loc l → exec (.encM1 loc) s =
      .next (answered s { s.datapath with m1 := BitVec.ofNat 15 (locIndex l) } 0 0 (BitVec.ofNat 324 (locIndex l)))) ∧
    (∀ e, locFails loc e → ∃ d, exec (.encM1 loc) s = .next (answered s d 1 e 0))

/-- 41_message_packer.md R128: m1 is in 0..32399, and `"RA90"` and `"AR09"` reach both ends. -/
def Obligations.LocatorIndexRange : Prop :=
  (∀ (s t : State) (loc : LocBus), exec (.encM1 loc) s = .next t → t.status = 0#2 → t.result.toNat ≤ 32399) ∧
  (∀ s : State, ∃ d, exec (.encM1 (text 32 [0x52, 0x41, 0x39, 0x30])) s = .next (answered s d 0 0 0)) ∧
  ∀ s : State, ∃ d, exec (.encM1 (text 32 [0x41, 0x52, 0x30, 0x39])) s = .next (answered s d 0 0 32399#324)

/-- 41_message_packer.md R131: the value for every power, and no exception but those of ENC_M1. -/
def Obligations.EncMFollowsItsRule : Prop :=
  (∀ r : Request, r.op = 7#4 → decode r = .ok (.encM r.loc r.power)) ∧
  ∀ (s : State) (loc : LocBus) (p : Byte),
    (∀ l, goodLoc loc l → exec (.encM loc p) s =
      .next (answered s
        { s.datapath with
          m1 := BitVec.ofNat 15 (locIndex l)
          m := BitVec.ofNat 22 (powerInt (locIndex l) p.toNat) }
        0 0 (BitVec.ofNat 324 (powerInt (locIndex l) p.toNat)))) ∧
    (∀ e, locFails loc e → ∃ d, exec (.encM loc p) s = .next (answered s d 1 e 0))

/-- 41_message_packer.md R130: m is m1 * 128 + power + 64 for every power, within 64..4147391, and at most 4147196 for a
power of 0..60. -/
def Obligations.PowerIntegerRange : Prop :=
  ∀ (s : State) (loc : LocBus) (p : Byte) (t : State), exec (.encM1 loc) s = .next t → t.status = 0#2 →
    ∃ u, exec (.encM loc p) s = .next u ∧ u.status = 0#2 ∧
      u.result.toNat = t.result.toNat * 128 + p.toNat + 64 ∧
      64 ≤ u.result.toNat ∧ u.result.toNat ≤ 4147391 ∧ u.result.toNat < 2 ^ 22 ∧
      (p.toNat ≤ 60 → u.result.toNat ≤ 4147196)

/-- 41_message_packer.md R133: every message byte of R132, and 0 above them. -/
def Obligations.MessagePacksBytes : Prop :=
  (∀ r : Request, r.op = 1#4 → decode r = .ok (.message r.callLen r.call r.loc r.power)) ∧
  ∀ (s : State) (n : Byte) (call : CallBus) (loc : LocBus) (p : Byte) (c l : Nat → Nat),
    goodCall n call c → goodLoc loc l →
    ∃ v d, exec (.message n call loc p) s = .next (answered s d 0 0 v) ∧
      (∀ k, k < 7 → byteAt v k = BitVec.ofNat 8 (packedByte (callInt c) (powerInt (locIndex l) p.toNat) k)) ∧
      ∀ b, 56 ≤ b → v.getLsbD b = false

/-- 20_memory.md R55 and 41_message_packer.md R135: the packed message is big-endian, `{msg[0], …, msg[6]}` equals
`{N[27:0], m[21:0], 000000}`, with the N and m that ENC_CALL and ENC_M give. -/
def Obligations.MessageIsBigEndian : Prop :=
  ∀ (s : State) (n : Byte) (call : CallBus) (loc : LocBus) (p : Byte) (t1 t2 : State),
    exec (.encCall n call) s = .next t1 → exec (.encM loc p) s = .next t2 → t1.status = 0#2 → t2.status = 0#2 →
    ∃ v d, exec (.message n call loc p) s = .next (answered s d 0 0 v) ∧
      (byteAt v 0).toNat * 256 ^ 6 + (byteAt v 1).toNat * 256 ^ 5 + (byteAt v 2).toNat * 256 ^ 4 +
        (byteAt v 3).toNat * 256 ^ 3 + (byteAt v 4).toNat * 256 ^ 2 + (byteAt v 5).toNat * 256 + (byteAt v 6).toNat
        = t1.result.toNat * 2 ^ 28 + t2.result.toNat * 2 ^ 6 ∧
      t1.result.toNat < 2 ^ 28 ∧ t2.result.toNat < 2 ^ 22 ∧ (byteAt v 6).toNat % 64 = 0

/-- 41_message_packer.md R136: a space at position 1 aliases with the next character 0, and a power of 128 or more with the
next locator index. -/
def Obligations.PackingAliases : Prop :=
  (∀ (s : State) (n : Byte) (call call' : CallBus) (c c' : Nat → Nat), goodCall n call c → goodCall n call' c' →
    c 1 = 36 → c' 1 = 0 → c' 0 = c 0 + 1 → (∀ k, 2 ≤ k → c' k = c k) →
    ∃ v d d', exec (.encCall n call) s = .next (answered s d 0 0 v) ∧
      exec (.encCall n call') s = .next (answered s d' 0 0 v)) ∧
  ∀ (s : State) (loc loc' : LocBus) (l l' : Nat → Nat) (p : Byte), goodLoc loc l → goodLoc loc' l' →
    locIndex l' = locIndex l + 1 → 128 ≤ p.toNat →
    ∃ v d d', exec (.encM loc p) s = .next (answered s d 0 0 v) ∧
      exec (.encM loc' (p - 128#8)) s = .next (answered s d' 0 0 v)

/-- 41_message_packer.md R139 and R137: the 20 characters of the rendering, and 0 above them. -/
def Obligations.MessageStrRendersHex : Prop :=
  (∀ r : Request, r.op = 2#4 → decode r = .ok (.messageStr r.callLen r.call r.loc r.power)) ∧
  ∀ (s : State) (n : Byte) (call : CallBus) (loc : LocBus) (p : Byte) (c l : Nat → Nat),
    goodCall n call c → goodLoc loc l →
    ∃ v d, exec (.messageStr n call loc p) s = .next (answered s d 0 0 v) ∧
      (∀ q, q < 20 → byteAt v q = BitVec.ofNat 8 (textByte (callInt c) (powerInt (locIndex l) p.toNat) q)) ∧
      ∀ b, 160 ≤ b → v.getLsbD b = false

/-- 41_message_packer.md R134, 60_exceptions.md R230, R231, R234 and 45_pipeline.md R211: MESSAGE, MESSAGE_STR and ENCODE
report the callsign's error first, then the locator's, and return no partial result. -/
def Obligations.PackerErrorsInOrder : Prop :=
  ∀ (s : State) (n : Byte) (call : CallBus) (loc : LocBus) (p : Byte) (i : Instr),
    i ∈ [Instr.message n call loc p, .messageStr n call loc p, .encode n call loc p] →
    (∀ st e, callFails n call st e → ∃ d, exec i s = .next (answered s d st e 0)) ∧
    (∀ c e, goodCall n call c → locFails loc e → ∃ d, exec i s = .next (answered s d 1 e 0))

/-! ### convolutional_encoder_rate_half_k32 -/

/-- 42_convolutional_encoder.md R157: the closed form of every coded bit; CONV completes on every message (R150, R156). -/
def Obligations.ConvClosedForm : Prop :=
  ∀ (s : State) (msg : MsgBus), ∃ v d, exec (.conv msg) s = .next (answered s d 0 0 v) ∧
    (∀ t, t ≤ 80 → v.getLsbD (2 * t) = tap 0xF2D05351 (messageBit msg) t ∧
      v.getLsbD (2 * t + 1) = tap 0xE4613C47 (messageBit msg) t) ∧
    ∀ b, 162 ≤ b → v.getLsbD b = false

/-- 42_convolutional_encoder.md R158: CONV is linear, CONV(0) = 0, and every output is the XOR of the impulse responses of
its set input bits. -/
def Obligations.ConvIsLinear : Prop :=
  ∃ f : MsgBus → ResultBus,
    (∀ (s : State) (msg : MsgBus), ∃ d, exec (.conv msg) s = .next (answered s d 0 0 (f msg))) ∧
    (∀ x y, f (x ^^^ y) = f x ^^^ f y) ∧ f 0 = 0 ∧
    ∀ x : MsgBus, f x = (List.range 56).foldl
      (fun acc b => if x.getLsbD b then acc ^^^ f (BitVec.twoPow 56 b) else acc) 0

/-- 42_convolutional_encoder.md R159: each output bit depends on at most the 32 most recent input bits; from t = 31 on both
depend on the bit 31 steps back, and both always depend on the newest bit. -/
def Obligations.ConvConstraintLength : Prop :=
  ∃ f : MsgBus → ResultBus,
    (∀ (s : State) (msg : MsgBus), ∃ d, exec (.conv msg) s = .next (answered s d 0 0 (f msg))) ∧
    (∀ (x y : MsgBus) (t : Nat), t ≤ 80 →
      (∀ j, j ≤ t → t ≤ j + 31 → messageBit x j = messageBit y j) →
      (f x).getLsbD (2 * t) = (f y).getLsbD (2 * t) ∧ (f x).getLsbD (2 * t + 1) = (f y).getLsbD (2 * t + 1)) ∧
    (∀ (x y : MsgBus) (t old : Nat), t ≤ 80 → (old = t ∨ old + 31 = t) →
      messageBit x old ≠ messageBit y old →
      (∀ j, j ≤ t → t ≤ j + 31 → j ≠ old → messageBit x j = messageBit y j) →
      (f x).getLsbD (2 * t) ≠ (f y).getLsbD (2 * t) ∧ (f x).getLsbD (2 * t + 1) ≠ (f y).getLsbD (2 * t + 1))

/-- 42_convolutional_encoder.md R155: at the exit t = 80, 162 coded bits are written, and register bit i holds the input bit
80 - i, so message bit 49 is still in register bit 31. -/
def Obligations.ConvTruncates : Prop :=
  ∀ (s : State) (msg : MsgBus), ∃ t, exec (.conv msg) s = .next t ∧
    t.datapath.t.val = 80 ∧ t.datapath.k.val = 162 ∧
    (∀ i, i < 32 → t.datapath.reg0.getLsbD i = messageBit msg (80 - i) ∧
      t.datapath.reg1.getLsbD i = messageBit msg (80 - i))

/-! ### channel_interleaver_bit_reversal -/

/-- 43_channel_interleaver.md R175 and R176: coded bit p goes to output position PERM[p]; output position q takes coded bit
INV[q]; INTERLEAVE completes on every input (R170, R177). -/
def Obligations.InterleavePermutes : Prop :=
  ∀ (s : State) (bits : BitSeq), ∃ v d, exec (.interleave bits) s = .next (answered s d 0 0 v) ∧
    (∀ p, p < 162 → v.getLsbD (perm p) = bits.getLsbD p) ∧
    (∀ q, q < 162 → v.getLsbD q = bits.getLsbD (inv q)) ∧
    ∀ b, 162 ≤ b → v.getLsbD b = false

/-- 43_channel_interleaver.md R178: the position where each coded bit lands. -/
def Obligations.InterleaveSpreadsNeighbours : Prop :=
  ∃ pos : Nat → Nat,
    (∀ (s : State) (bits : BitSeq), ∃ v d, exec (.interleave bits) s = .next (answered s d 0 0 v) ∧
      (∀ p, p < 162 → v.getLsbD (pos p) = bits.getLsbD p) ∧
      v.getLsbD 161 = bits.getLsbD 85 ∧ v.getLsbD 0 = bits.getLsbD 0) ∧
    (∀ p, p < 162 → pos p < 162) ∧
    (∀ p, p ≤ 80 → pos p % 2 = 0) ∧ (∀ p, 81 ≤ p → p < 162 → pos p % 2 = 1) ∧
    (∀ q, q < 162 → ∃ p, p < 162 ∧ pos p = q) ∧
    (∀ p, p < 161 → pos p + 32 ≤ pos (p + 1) ∨ pos (p + 1) + 32 ≤ pos p) ∧
    pos 2 = 64 ∧ pos 3 = 32

/-! ### symbol_mapper -/

/-- 44_symbol_mapper.md R195 and R194: every symbol, in each of the three modes of R193. -/
def Obligations.MapFollowsItsRule : Prop :=
  (∀ r : Request, r.op = 10#4 → decode r = .ok (.map r.bits)) ∧
  ∀ (s : State) (bits sync : BitSeq) (mode : LastSymbolMode),
    s.config.sync = some sync → s.config.lastSymbolMode = some mode →
    ∃ v d, exec (.map bits) s = .next (answered s d 0 0 v) ∧
      ∀ i, i < 162 → symbolAt v i = symbol mode sync i (bits.getLsbD i)

/-- 44_symbol_mapper.md R197: the data bit and the sync bit can be recovered from every symbol 0..160, and from symbol 161 in
mode MERGE only. -/
def Obligations.SymbolsRecoverBitsAndSync : Prop :=
  ∀ (s : State) (sync : BitSeq) (mode : LastSymbolMode),
    s.config.sync = some sync → s.config.lastSymbolMode = some mode →
    (∀ bits : BitSeq, ∃ v d, exec (.map bits) s = .next (answered s d 0 0 v) ∧
      ∀ i, (i < 161 ∨ (i = 161 ∧ mode = .merge)) →
        (symbolAt v i).toNat % 2 = (sync.getLsbD i).toNat ∧ (symbolAt v i).toNat / 2 = (bits.getLsbD i).toNat) ∧
    (mode ≠ .merge → ∃ (bits : BitSeq) (v : ResultBus) (d : Datapath),
      exec (.map bits) s = .next (answered s d 0 0 v) ∧ (symbolAt v 161).toNat / 2 ≠ (bits.getLsbD 161).toNat)

/-- 44_symbol_mapper.md R193: when `inter[161] = 0` and `SYNC[161] = 0`, every mode gives the same symbols, the last one 0. -/
def Obligations.LastSymbolModesAgreeOnZero : Prop :=
  ∀ (s s' : State) (bits sync : BitSeq) (mode mode' : LastSymbolMode),
    s.config.sync = some sync → s.config.lastSymbolMode = some mode →
    s'.config.sync = some sync → s'.config.lastSymbolMode = some mode' →
    bits.getLsbD 161 = false → sync.getLsbD 161 = false →
    ∃ v d d', exec (.map bits) s = .next (answered s d 0 0 v) ∧ exec (.map bits) s' = .next (answered s' d' 0 0 v) ∧
      symbolAt v 161 = 0#2

/-- 60_exceptions.md R247: MAP, and ENCODE of a good record, are refused when `SYNC` or `LAST_SYMBOL_MODE` has not been
fixed. -/
def Obligations.UnfixedConfigurationIsRefused : Prop :=
  ∀ s : State, (s.config.sync = none ∨ s.config.lastSymbolMode = none) →
    (∀ bits : BitSeq, exec (.map bits) s = .refused .configurationUnfixed) ∧
    ∀ (n : Byte) (call : CallBus) (loc : LocBus) (p : Byte) (c l : Nat → Nat), goodCall n call c → goodLoc loc l →
      exec (.encode n call loc p) s = .refused .configurationUnfixed

/-! ### the whole pipeline -/

/-- 45_pipeline.md R210 and R212: every one of the 162 symbols of an accepted record, in closed form: the symbol at
PERM[2t] carries the coded bit of POLY0 at input step t, the one at PERM[2t+1] that of POLY1. -/
def Obligations.EncodeClosedForm : Prop :=
  ∀ (s : State) (n : Byte) (call : CallBus) (loc : LocBus) (p : Byte) (c l : Nat → Nat) (sync : BitSeq)
    (mode : LastSymbolMode), goodCall n call c → goodLoc loc l →
    s.config.sync = some sync → s.config.lastSymbolMode = some mode →
    ∃ v d, exec (.encode n call loc p) s = .next (answered s d 0 0 v) ∧
      ∀ t, t ≤ 80 →
        symbolAt v (perm (2 * t)) = symbol mode sync (perm (2 * t))
          (tap 0xF2D05351 (recordBit (callInt c) (powerInt (locIndex l) p.toNat)) t) ∧
        symbolAt v (perm (2 * t + 1)) = symbol mode sync (perm (2 * t + 1))
          (tap 0xE4613C47 (recordBit (callInt c) (powerInt (locIndex l) p.toNat)) t)

/-- 45_pipeline.md R213: MESSAGE, then CONV, INTERLEAVE and MAP on the results before, give the status and result of ENCODE;
if MESSAGE fails, ENCODE fails with the same status and err_byte. -/
def Obligations.StagedCommandsEqualEncode : Prop :=
  ∀ (s t1 : State) (n : Byte) (call : CallBus) (loc : LocBus) (p : Byte),
    exec (.message n call loc p) s = .next t1 →
    (t1.status ≠ 0#2 → ∃ d, exec (.encode n call loc p) s = .next (answered s d t1.status t1.errByte t1.result)) ∧
    (t1.status = 0#2 → s.config.sync ≠ none → s.config.lastSymbolMode ≠ none →
      ∃ t2 t3 t4 d, exec (.conv (t1.result.setWidth 56)) t1 = .next t2 ∧
        exec (.interleave (t2.result.setWidth 162)) t2 = .next t3 ∧
        exec (.map (t3.result.setWidth 162)) t3 = .next t4 ∧
        exec (.encode n call loc p) s = .next (answered s d t4.status t4.errByte t4.result))

/-- The source's first worked example (95_test_vectors.md W1): N, m1, m and the first twelve symbols, from reset. -/
def Obligations.SourceExampleVk3xe : Prop :=
  (∃ d, exec (.encCall 6#8 (text 48 [0x56, 0x4B, 0x33, 0x58, 0x45, 0x20])) State.reset =
    .next (answered State.reset d 0 0 223674830#324)) ∧
  (∃ d, exec (.encM1 (text 32 [0x51, 0x46, 0x32, 0x32])) State.reset = .next (answered State.reset d 0 0 3112#324)) ∧
  (∃ d, exec (.encM (text 32 [0x51, 0x46, 0x32, 0x32]) 23#8) State.reset =
    .next (answered State.reset d 0 0 398423#324)) ∧
  ∃ v d, exec (.encode 6#8 (text 48 [0x56, 0x4B, 0x33, 0x58, 0x45, 0x20]) (text 32 [0x51, 0x46, 0x32, 0x32]) 23#8)
      State.reset = .next (answered State.reset d 0 0 v) ∧
    (List.range 12).map (fun i => (symbolAt v i).toNat) = [3, 3, 0, 2, 0, 2, 0, 2, 1, 2, 2, 0]

/-! ### every command -/

/-- What a command changes: the response registers, `done`, `state` and the datapath, nothing else; and the response is
legal (10_state.md R25, 60_exceptions.md R236). -/
def Obligations.CommandChangesResponseOnly : Prop :=
  ∀ (i : Instr) (s t : State), exec i s = .next t →
    t = answered s t.datapath t.status t.errByte t.result ∧ legalResponse t ∧ t.status.toNat ≤ 2

/-- Which datapath registers each command may write; the others keep their values up to its completion (10_state.md R29:
each is initialized by the command that uses it). On a failing command, that is the model's reading (assumption log 12). -/
def Obligations.CommandDatapathFrame : Prop :=
  ∀ (s t : State) (n ch p : Byte) (call : CallBus) (loc : LocBus) (msg : MsgBus) (bits : BitSeq),
    (exec (.encNumStr ch) s = .next t → t.datapath = s.datapath) ∧
    (exec (.encLocChar ch) s = .next t → t.datapath = s.datapath) ∧
    (exec (.encCall n call) s = .next t → { t.datapath with N := 0 } = { s.datapath with N := 0 }) ∧
    (exec (.encM1 loc) s = .next t → { t.datapath with m1 := 0 } = { s.datapath with m1 := 0 }) ∧
    (exec (.encM loc p) s = .next t → { t.datapath with m1 := 0, m := 0 } = { s.datapath with m1 := 0, m := 0 }) ∧
    (exec (.message n call loc p) s = .next t →
      { t.datapath with N := 0, m1 := 0, m := 0, msg := 0 } = { s.datapath with N := 0, m1 := 0, m := 0, msg := 0 }) ∧
    (exec (.messageStr n call loc p) s = .next t →
      { t.datapath with N := 0, m1 := 0, m := 0, msg := 0 } = { s.datapath with N := 0, m1 := 0, m := 0, msg := 0 }) ∧
    (exec (.conv msg) s = .next t →
      { t.datapath with buf := 0, reg0 := 0, reg1 := 0, coded := 0, t := 0, k := 0 } =
        { s.datapath with buf := 0, reg0 := 0, reg1 := 0, coded := 0, t := 0, k := 0 }) ∧
    (exec (.interleave bits) s = .next t →
      { t.datapath with coded := 0, inter := 0, j := 0, p := 0 } =
        { s.datapath with coded := 0, inter := 0, j := 0, p := 0 }) ∧
    (exec (.map bits) s = .next t →
      { t.datapath with inter := 0, sym := 0, i := 0 } = { s.datapath with inter := 0, sym := 0, i := 0 })

/-- 10_state.md R28 and 60_exceptions.md R237: the outcome is a function of the command and the configuration alone, whatever
response, status or datapath was there before. -/
def Obligations.OutcomeIgnoresHistory : Prop :=
  ∀ (i : Instr) (s s' : State), s'.config = s.config →
    (∀ t, exec i s = .next t → ∃ t', exec i s' = .next t' ∧ sameResponse t t') ∧
    (∀ r, exec i s = .refused r → exec i s' = .refused r)

/-- 30_encoding.md R75: a port that the command does not read has no effect on the response. -/
def Obligations.UnreadPortsHaveNoEffect : Prop :=
  ∀ (s t : State) (r r' : Request), agreeOnRead r r' → completeEdge { s with captured := r } = .next t →
    ∃ t', completeEdge { s with captured := r' } = .next t' ∧ sameResponse t t'

/-! ### the edges -/

/-- 10_state.md R28 and 60_exceptions.md R236: at the completing edge the step takes the ports' next entry and runs the command
in the captured-input registers. The next state is the one `exec` answers, `status`, `err_byte`, `result`, `done` and
`state` among it, but for the datapath (unspecified once the command has ended: assumption log 9) and the model's own count
of free values (assumption log 8). Where `exec` is refused, so is the step. -/
def Obligations.StepRunsCapturedCommand : Prop :=
  ∀ (s : State) (i : Instr), (sampledPorts s).rst = false → s.hasBeenReset = true → s.control = .busy → s.wait = 0 →
    decode s.captured = .ok i →
    (∀ t, exec i { s with inputs := s.inputs.tail } = .next t →
      ∃ d, step s = .next { t with datapath := d, freeCount := t.freeCount + 1 }) ∧
    ∀ r, exec i { s with inputs := s.inputs.tail } = .refused r → step s = .refused r

/-- 60_exceptions.md R232: a reserved code completes with ILLEGAL_OP, err_byte 0 and result 0, whatever the operands. Every
other field but the datapath (unspecified between commands, 10_state.md R29) and the model's own free-value counter is kept. -/
def Obligations.ReservedCodeIsIllegalOp : Prop :=
  ∀ s : State, (sampledPorts s).rst = false → s.hasBeenReset = true → s.control = .busy → s.wait = 0 →
    11 ≤ s.captured.op.toNat →
    ∃ t, step s = .next t ∧
      { t with freeCount := s.freeCount } = answered { s with inputs := s.inputs.tail } t.datapath 3 0 0

/-- 10_state.md R24: an accepting edge captures every operand port, clears `done` and goes BUSY, and nothing else changes but
the model's own wait count; at any other edge with `rst = 0` the captured-input registers keep their values. -/
def Obligations.AcceptanceCapturesPorts : Prop :=
  ∀ s : State, (sampledPorts s).rst = false → s.hasBeenReset = true →
    (s.control = .idle → (sampledPorts s).reqValid = true →
      step s = .next { s with
        captured := (sampledPorts s).req
        done := false
        control := .busy
        wait := s.config.latency (sampledPorts s).req.op - 1
        inputs := s.inputs.tail }) ∧
    (∀ t, ¬ (s.control = .idle ∧ (sampledPorts s).reqValid = true) → step s = .next t → t.captured = s.captured)

/-- 70_reset_and_hazards.md R260, R261 and R263: a reset edge in any state, BUSY or never reset before included, gives the
reset values; `req_ready` is 0 while `rst = 1`; the configuration is not affected. -/
def Obligations.ResetEdgeGivesResetValues : Prop :=
  ∀ s : State, (sampledPorts s).rst = true → ∃ t, step s = .next t ∧
    t.control = .idle ∧ t.done = false ∧ t.status = 0#2 ∧ t.errByte = 0#8 ∧ t.result = 0#324 ∧
    t.config = s.config ∧ t.hasBeenReset = true ∧ reqReady (sampledPorts s) s = false

/-- 10_state.md R35: the values the spec gives for reset, in `State.reset`. -/
def Obligations.ResetStateHasSpecValues : Prop :=
  State.reset.control = .idle ∧ State.reset.done = false ∧ State.reset.status = 0#2 ∧
    State.reset.errByte = 0#8 ∧ State.reset.result = 0#324

/-- 70_reset_and_hazards.md R262 and R264: before the first reset edge no edge has a meaning; from power-up one edge with
`rst = 1` makes the block ready, and it then accepts a request. -/
def Obligations.BootNeedsResetEdge : Prop :=
  (∀ s : State, s.hasBeenReset = false → (sampledPorts s).rst = false → step s = .refused .beforeFirstReset) ∧
  ∀ (config : Configuration) (n : Nat) (first second : Ports) (later : List Ports),
    first.rst = true → second.rst = false → second.reqValid = true →
    ∃ t u, step (powerUp config (first :: second :: later) n) = .next t ∧ reqReady second t = true ∧
      t.done = false ∧ step t = .next u ∧ u.control = .busy ∧ u.captured = second.req ∧ u.config = config

/-- 60_exceptions.md R246: an idle block with nothing offered holds every register. -/
def Obligations.IdleHoldsEveryRegister : Prop :=
  ∀ s : State, (sampledPorts s).rst = false → s.hasBeenReset = true → s.control = .idle →
    (sampledPorts s).reqValid = false → step s = .next { s with inputs := s.inputs.tail }

/-- 70_reset_and_hazards.md R271 and R270: while a command is in flight the input ports other than `rst` have no effect: a
request is not accepted, not queued and not remembered. -/
def Obligations.BusyIgnoresPorts : Prop :=
  ∀ (s : State) (p p' : Ports) (later : List Ports), s.control = .busy → p'.rst = p.rst →
    step { s with inputs := p :: later } = step { s with inputs := p' :: later }

/-- 70_reset_and_hazards.md R270: a response stays until the next acceptance or reset. The premise `doneOnlyIdle` is an
invariant of the model (ResponseInvariantHolds). -/
def Obligations.ResponseStaysUntilAcceptance : Prop :=
  ∀ s t : State, doneOnlyIdle s → s.done = true → (sampledPorts s).rst = false →
    (sampledPorts s).reqValid = false → step s = .next t → sameResponse s t

/-- 10_state.md R25, R24 and R28: the invariant of the response registers is kept by every step: the response is legal,
`done` is 0 while BUSY, and where `done` is 1 the response is that of the captured command. -/
def Obligations.ResponseInvariantHolds : Prop :=
  ∀ s t : State, ResponseInv s → step s = .next t → ResponseInv t

/-- The invariant of ResponseInvariantHolds holds at reset (10_state.md R35), and in every state after power-up. The power-up
clause is the model's own: before the first reset edge every register is unspecified (70_reset_and_hazards.md R262;
`powerUp`, assumption log 22), and the invariant claims nothing there (`hasBeenReset`, assumption log 14). -/
def Obligations.ResponseInvariantAtReset : Prop :=
  ResponseInv State.reset ∧
  ∀ (config : Configuration) (inputs : List Ports) (n : Nat), ResponseInv (powerUp config inputs n)

/-- 20_memory.md R52 and R63: no step changes the configuration. -/
def Obligations.ConfigurationNeverChanges : Prop :=
  ∀ s t : State, step s = .next t → t.config = s.config

/-- 10_state.md R24, R25, R28 and 70_reset_and_hazards.md R275: a request offered to an idle block completes exactly
LATENCY(op) edges after its acceptance if no reset comes in between; for every latency and every configuration. At every
edge before, `done` is 0, `state` is BUSY, the captured request stays, and the response registers and the configuration keep
the values they had (R25; nothing is claimed of the datapath, nor of the model's own wait count and the ports still to come:
assumption logs 2, 5 and 9). At the completing edge the response is the one `exec` of the decoded request gives, in whatever state it is asked (R28: it does not depend on
the state); or ILLEGAL_OP for a reserved code (60_exceptions.md R232). Where `exec` is refused (R247), the completing edge
is. -/
def Obligations.CommandCompletesAfterLatency : Prop :=
  ∀ (s : State) (p : Ports) (later : List Ports), s.hasBeenReset = true → s.control = .idle →
    s.inputs = p :: later → p.rst = false → p.reqValid = true →
    (∀ q ∈ later.take (s.config.latency p.req.op), q.rst = false) →
    (∀ k, k < s.config.latency p.req.op →
      ∃ w, run (1 + k) s = .next w ∧
        w = { s with
          captured := p.req
          done := false
          control := .busy
          datapath := w.datapath
          wait := w.wait
          inputs := w.inputs }) ∧
    (∀ i, decode p.req = .ok i →
      (∀ u, exec i s = .next u → ∃ t, run (1 + s.config.latency p.req.op) s = .next t ∧ t.done = true ∧
        t.control = .idle ∧ t.status = u.status ∧ t.errByte = u.errByte ∧ t.result = u.result ∧
        t.captured = p.req ∧ t.config = s.config) ∧
      ∀ r, exec i s = .refused r → run (1 + s.config.latency p.req.op) s = .refused r) ∧
    (11 ≤ p.req.op.toNat → ∃ t, run (1 + s.config.latency p.req.op) s = .next t ∧ t.done = true ∧
      t.control = .idle ∧ t.status = 3#2 ∧ t.errByte = 0#8 ∧ t.result = 0#324 ∧
      t.captured = p.req ∧ t.config = s.config)

/-- 10_state.md R25 ("written only by completion (rule R28) and reset (rule R260)") and 70_reset_and_hazards.md R274: a step
that is neither a completion nor a reset keeps `status`, `err_byte` and `result`. A completion is a step at which the model's
wait count is 0 while BUSY (assumption log 2). -/
def Obligations.ResponseWrittenOnlyByCompletionAndReset : Prop :=
  ∀ s t : State, (sampledPorts s).rst = false → ¬ (s.control = .busy ∧ s.wait = 0) → step s = .next t →
    t.status = s.status ∧ t.errByte = s.errByte ∧ t.result = s.result

/-- 70_reset_and_hazards.md R274, R262 and R272 H6: a read of the response is refused before the first reset edge, whatever
`done` holds (assumption log 17), and after it exactly while `done = 0`; with `done = 1` it gives the response registers
(R270). -/
def Obligations.StaleReadIsRefused : Prop :=
  ∀ s : State, (s.hasBeenReset = false → readResponse s = .error .beforeFirstReset) ∧
    (s.hasBeenReset = true → s.done = false → readResponse s = .error .staleResponse) ∧
    (s.hasBeenReset = true → s.done = true →
      readResponse s = .ok { status := s.status, errByte := s.errByte, result := s.result })

/-! ### encoding and the host's side -/

/-- 30_encoding.md R71: the decoder reads every command word back, every operand at every value. -/
def Obligations.DecodeReadsEncodedWord : Prop :=
  ∀ i : Instr, decodeWord (encodeWord i) = .ok i

/-- The other direction: a word whose unread ports are 0 is the word of what it decodes to (30_encoding.md R79). -/
def Obligations.EncodeGivesDecodedWord : Prop :=
  ∀ (w : CommandWord) (i : Instr), (Request.ofWord w).wellFormed = true → decodeWord w = .ok i → encodeWord i = w

/-- 30_encoding.md R75: decoding is total; exactly the codes 0xB to 0xF are rejected, each by name. -/
def Obligations.DecodingIsTotal : Prop :=
  ∀ r : Request, (r.op.toNat ≤ 10 → ∃ i, decode r = .ok i ∧ (encode i).op = r.op) ∧
    (11 ≤ r.op.toNat → decode r = .error (.reservedOp r.op))

/-- Words written out from 30_encoding.md R71 and the port order of assumption log 10 decode to the commands they stand for. -/
def Obligations.WrittenWordsDecode : Prop :=
  decodeTableWord 8 0x3 = some (.encNumStr 0x00) ∧
  decodeTableWord 112 0x563 = some (.encNumStr 0x00) ∧
  decodeTableWord 108 (0x56 * 2 ^ 100 + 0x3) = some (.encNumStr 0x56) ∧
  decodeTableWord 64 0x204558334B56065 = some (.encCall 0x06 0x204558334B56) ∧
  decodeTableWord 100 (0x17 * 2 ^ 92 + 0x32324651 * 2 ^ 60 + 0x7) = some (.encM 0x32324651 0x17) ∧
  decodeTableWord 168 (0x80 * 2 ^ 108 + 0x8) = some (.conv 0x80) ∧
  decodeTableWord 326 (2 ^ 249 + 0x9) = some (.interleave (BitVec.twoPow 162 85)) ∧
  decodeTableWord 8 0xB = none ∧ decodeTableWord 8 0xF = none

/-- 30_encoding.md R73 and 70_reset_and_hazards.md R272 H4: what the host presents for a callsign string. -/
def Obligations.CallOperandPresentsString : Prop :=
  ∀ callsign : List Byte, (callOperand callsign).1.toNat = min callsign.length 255 ∧
    ∀ k, k < 6 → byteAt (callOperand callsign).2 k = callsign.getD k 0

/-- 70_reset_and_hazards.md R272 H3 and 30_encoding.md R74: a locator shorter than 4 is refused for every command that reads
the locator. Every other code, ENC_CALL and the reserved ones among them, is no concern of the duty: it is never refused for
its locator string, and a code that reads no callsign either is issued as it is. -/
def Obligations.ShortLocatorIsRefused : Prop :=
  ∀ (callsign locator : List Byte) (r : Request),
    (locator.length < 4 → r.op.toNat ∈ [0, 1, 2, 6, 7] → issue callsign locator r = .error .locatorTooShort) ∧
    (r.op.toNat ∉ [0, 1, 2, 6, 7] → issue callsign locator r ≠ .error .locatorTooShort ∧
      ∀ locator', issue callsign locator' r = issue callsign locator r) ∧
    (r.op.toNat ∉ [0, 1, 2, 5, 6, 7] → issue callsign locator r = .ok r)

/-- 70_reset_and_hazards.md R272 H3 and H4, 93_implementation_defined.md U1 and U8: operands that are not the ones the string
asks for are refused for every command that reads them; operands presented as asked are issued. The refusals are the model's
form of the duties (assumption log 16). -/
def Obligations.OperandsMustBePresentedAsAsked : Prop :=
  ∀ (callsign locator : List Byte) (r : Request),
    (r.op.toNat ∈ [0, 1, 2, 6, 7] → 4 ≤ locator.length → ¬ locAsAsked locator r →
      issue callsign locator r = .error .operandMispresented) ∧
    (r.op.toNat ∈ [0, 1, 2] → locAsAsked locator r → ¬ callAsAsked callsign r →
      issue callsign locator r = .error .operandMispresented) ∧
    (r.op.toNat = 5 → ¬ callAsAsked callsign r → issue callsign locator r = .error .operandMispresented) ∧
    ((r.op.toNat ∈ [0, 1, 2, 6, 7] → locAsAsked locator r) →
      (r.op.toNat ∈ [0, 1, 2, 5] → callAsAsked callsign r) → issue callsign locator r = .ok r)
end

