-- ==== Sys2Proof/Laws/Lanes.lean ====
section
/-! SUPPORT. What reading a bit, a byte or a symbol of a built bus gives. -/

namespace Sys2Proof.Machine

@[simp] theorem getLsbD_bitsOf (f : Nat → Bool) (n i : Nat) :
    (bitsOf f n).getLsbD i = (decide (i < n) && f i) := by
  induction n with
  | zero => simp [bitsOf]
  | succ n ih =>
    rw [bitsOf, BitVec.getLsbD_cons, ih]
    by_cases h : i = n
    · subst h; simp
    · by_cases h' : i < n
      · simp [h, h', Nat.lt_succ_of_lt h']
      · have : ¬ i < n + 1 := by omega
        simp [h, h', this]

theorem getLsbD_setElement {n : Nat} (v : BitVec n) (i : Nat) (b : Bool) (q : Nat) :
    (setElement v i b).getLsbD q = if q = i ∧ q < n then b else v.getLsbD q := by
  unfold setElement
  cases b with
  | true =>
    rw [if_pos rfl, BitVec.getLsbD_or, BitVec.getLsbD_twoPow]
    by_cases h : q = i
    · subst h; by_cases hn : q < n <;> simp [hn]
    · simp [h, Ne.symm h]
  | false =>
    rw [if_neg Bool.false_ne_true, BitVec.getLsbD_and, BitVec.getLsbD_not, BitVec.getLsbD_twoPow]
    by_cases h : q = i
    · subst h
      by_cases hn : q < n
      · simp [hn]
      · simp [hn, BitVec.getLsbD_of_ge v q (by omega)]
    · by_cases hn : q < n
      · simp [h, Ne.symm h, hn]
      · simp [h, hn, BitVec.getLsbD_of_ge v q (by omega)]

@[simp] theorem getLsbD_byteAt {n : Nat} (v : BitVec n) (k b : Nat) :
    (byteAt v k).getLsbD b = (decide (b < 8) && v.getLsbD (8 * k + b)) := by
  rw [byteAt, BitVec.getLsbD_extractLsb']

@[simp] theorem getLsbD_symbolAt {n : Nat} (v : BitVec n) (i b : Nat) :
    (symbolAt v i).getLsbD b = (decide (b < 2) && v.getLsbD (2 * i + b)) := by
  rw [symbolAt, BitVec.getLsbD_extractLsb']

theorem byteAt_bytesOf (f : Nat → Byte) {n k : Nat} (h : 8 * k + 8 ≤ n) : byteAt (bytesOf f n) k = f k := by
  apply BitVec.eq_of_getLsbD_eq
  intro b hb
  have h1 : 8 * k + b < n := by omega
  have h2 : (8 * k + b) / 8 = k := by omega
  have h3 : (8 * k + b) % 8 = b := by omega
  simp only [bytesOf, getLsbD_byteAt, getLsbD_bitsOf, hb, h1, h2, h3, decide_true, Bool.true_and]

/-- A bus of whole bytes is the one built from `f` exactly when its bytes are. -/
theorem eq_bytesOf_iff {n : Nat} (v : BitVec (8 * n)) (f : Nat → Byte) :
    v = bytesOf f (8 * n) ↔ ∀ k, k < n → byteAt v k = f k := by
  constructor
  · rintro rfl k hk
    exact byteAt_bytesOf f (by omega)
  · intro h
    apply BitVec.eq_of_getLsbD_eq
    intro b hb
    have e := congrArg (fun x => x.getLsbD (b % 8)) (h (b / 8) (by omega))
    have h1 : b % 8 < 8 := Nat.mod_lt _ (by omega)
    simp only [getLsbD_byteAt, Nat.div_add_mod, decide_eq_true h1, Bool.true_and] at e
    simp only [bytesOf, getLsbD_bitsOf, decide_eq_true hb, Bool.true_and, e]

theorem symbolAt_symbolsOf (f : Nat → BitVec 2) {n i : Nat} (h : 2 * i + 2 ≤ n) :
    symbolAt (symbolsOf f n) i = f i := by
  apply BitVec.eq_of_getLsbD_eq
  intro b hb
  have h1 : 2 * i + b < n := by omega
  have h2 : (2 * i + b) / 2 = i := by omega
  have h3 : (2 * i + b) % 2 = b := by omega
  simp only [symbolsOf, getLsbD_symbolAt, getLsbD_bitsOf, hb, h1, h2, h3, decide_true, Bool.true_and]

/-- Two buses of 162 symbols are equal when all their symbols are. -/
theorem eq_of_symbolAt_eq {v w : BitVec 324} (h : ∀ i, i < 162 → symbolAt v i = symbolAt w i) : v = w := by
  apply BitVec.eq_of_getLsbD_eq
  intro b hb
  have h1 := congrArg (fun x => x.getLsbD (b % 2)) (h (b / 2) (by omega))
  have h2 : 2 * (b / 2) + b % 2 = b := by omega
  have h3 : b % 2 < 2 := by omega
  simpa only [getLsbD_symbolAt, h2, h3, decide_true, Bool.true_and] using h1

end Sys2Proof.Machine
end

