-- ==== Sys2Proof/Laws/Conv.lean ====
section
/-! SUPPORT. What the encoding loop leaves (42_convolutional_encoder.md R154): the registers hold the most recent input bits,
and every coded bit is the parity of a masked register. -/

namespace Sys2Proof.Machine

/-- The register after the input bits up to and including `t` have been shifted into a zero register: bit i is the input bit
i steps back. -/
def windowOf (u : Nat → Bool) : Nat → BitVec 32
  | 0 => shiftIn 0 (u 0)
  | t + 1 => shiftIn (windowOf u t) (u (t + 1))

theorem getLsbD_shiftIn (r : BitVec 32) (u : Bool) (i : Nat) :
    (shiftIn r u).getLsbD i = if i = 0 then u else (decide (i < 32) && r.getLsbD (i - 1)) := by
  unfold shiftIn
  rw [BitVec.getLsbD_append]
  by_cases h : i = 0
  · subst h; simp
  · have h1 : ¬ i < 1 := by omega
    simp only [h1, if_false, h, BitVec.getLsbD_extractLsb', Nat.zero_add]
    congr 1
    simp only [decide_eq_decide]; omega

/-- Register bit i after step t holds the input bit t - i, or 0 (42_convolutional_encoder.md R157). -/
theorem getLsbD_windowOf (u : Nat → Bool) (t i : Nat) :
    (windowOf u t).getLsbD i = (decide (i < 32 ∧ i ≤ t) && u (t - i)) := by
  induction t generalizing i with
  | zero =>
    rw [windowOf, getLsbD_shiftIn]
    by_cases h : i = 0
    · subst h; simp
    · have : ¬ (i < 32 ∧ i ≤ 0) := by omega
      simp [h]
  | succ t ih =>
    rw [windowOf, getLsbD_shiftIn]
    by_cases h : i = 0
    · subst h; simp
    · rw [if_neg h, ih, show t + 1 - i = t - (i - 1) by omega]
      by_cases h32 : i < 32
      · have e : (i - 1 < 32 ∧ i - 1 ≤ t) ↔ (i < 32 ∧ i ≤ t + 1) := by omega
        rw [decide_eq_decide.2 e, decide_eq_true h32, Bool.true_and]
      · simp [h32]

/-- The state of the loop before input bit `t`. -/
structure LoopInv (u : Nat → Bool) (t : Nat) (c : ConvRegs) : Prop where
  index : c.t = t
  count : c.k = 2 * t
  regs : t ≠ 0 → c.reg0 = windowOf u (t - 1) ∧ c.reg1 = windowOf u (t - 1)
  start : t = 0 → c.reg0 = 0 ∧ c.reg1 = 0
  even : ∀ q, q < t → c.coded.getLsbD (2 * q) = parity32 (windowOf u q &&& poly0)
  odd : ∀ q, q < t → c.coded.getLsbD (2 * q + 1) = parity32 (windowOf u q &&& poly1)

/-- What the loop leaves at its exit: 81 input bits shifted in, 162 coded bits written
(42_convolutional_encoder.md R155). -/
structure LoopExit (u : Nat → Bool) (c : ConvRegs) : Prop where
  index : c.t = 80
  count : c.k = 162
  reg0 : c.reg0 = windowOf u 80
  reg1 : c.reg1 = windowOf u 80
  even : ∀ q, q ≤ 80 → c.coded.getLsbD (2 * q) = parity32 (windowOf u q &&& poly0)
  odd : ∀ q, q ≤ 80 → c.coded.getLsbD (2 * q + 1) = parity32 (windowOf u q &&& poly1)

theorem windowOf_next (u : Nat → Bool) (t : Nat) (r : BitVec 32) (h : t ≠ 0 → r = windowOf u (t - 1))
    (h0 : t = 0 → r = 0) : shiftIn r (u t) = windowOf u t := by
  cases t with
  | zero => rw [h0 rfl]; rfl
  | succ t => rw [h (by omega)]; rfl

theorem convLoop_exit (buf : BitVec 88) (n t : Nat) (c : ConvRegs) (hn : n + t = 88) (ht : t ≤ 80)
    (hc : LoopInv (inputBit buf) t c) : LoopExit (inputBit buf) (convLoop buf n c) := by
  induction n generalizing t c with
  | zero => omega
  | succ n ih =>
    have w0 := windowOf_next (inputBit buf) t c.reg0 (fun h => (hc.regs h).1) (fun h => (hc.start h).1)
    have w1 := windowOf_next (inputBit buf) t c.reg1 (fun h => (hc.regs h).2) (fun h => (hc.start h).2)
    have hk := hc.count
    have hidx := hc.index
    rw [convLoop]
    have k0 : (convEmit0 (inputBit buf c.t) c).k = 2 * t + 1 := by simp [convEmit0, hk]
    have k1 : (convEmit1 (convEmit0 (inputBit buf c.t) c)).k = 2 * t + 2 := by simp [convEmit1, k0]
    have r0 : (convEmit1 (convEmit0 (inputBit buf c.t) c)).reg0 = windowOf (inputBit buf) t := by
      simp [convEmit1, convEmit0, hidx, w0]
    have r1 : (convEmit1 (convEmit0 (inputBit buf c.t) c)).reg1 = windowOf (inputBit buf) t := by
      simp [convEmit1, convEmit0, hidx, w1]
    have tt : (convEmit1 (convEmit0 (inputBit buf c.t) c)).t = t := by simp [convEmit1, convEmit0, hidx]
    have coded : ∀ q, (convEmit1 (convEmit0 (inputBit buf c.t) c)).coded.getLsbD q =
        if q = 2 * t + 1 then parity32 (windowOf (inputBit buf) t &&& poly1)
        else if q = 2 * t then parity32 (windowOf (inputBit buf) t &&& poly0) else c.coded.getLsbD q := by
      intro q
      simp only [convEmit1, convEmit0, getLsbD_setElement, hk, hidx, w0, w1]
      by_cases h1 : q = 2 * t + 1
      · subst h1; simp [show 2 * t + 1 < 162 by omega]
      · by_cases h2 : q = 2 * t
        · subst h2; simp [show 2 * t < 162 by omega]
        · simp [h1, h2]
    have ev : ∀ q, q ≤ t → (convEmit1 (convEmit0 (inputBit buf c.t) c)).coded.getLsbD (2 * q) =
        parity32 (windowOf (inputBit buf) q &&& poly0) := by
      intro q hq
      rw [coded, if_neg (by omega)]
      by_cases e : q = t
      · subst e; simp
      · rw [if_neg (by omega)]; exact hc.even q (by omega)
    have od : ∀ q, q ≤ t → (convEmit1 (convEmit0 (inputBit buf c.t) c)).coded.getLsbD (2 * q + 1) =
        parity32 (windowOf (inputBit buf) q &&& poly1) := by
      intro q hq
      rw [coded]
      by_cases e : q = t
      · subst e; simp
      · rw [if_neg (by omega), if_neg (by omega)]; exact hc.odd q (by omega)
    simp only [k0, k1, show ¬ 2 * t + 1 = 162 by omega, if_false]
    by_cases last : t = 80
    · subst last
      rw [if_pos (by omega)]
      exact ⟨tt, k1, r0, r1, ev, od⟩
    · rw [if_neg (by omega)]
      refine ih (t + 1) _ (by omega) (by omega) ⟨by simp [tt], by change 2 * t + 2 = _; omega, fun _ => ⟨r0, r1⟩,
        fun h => absurd h (by omega), fun q hq => ev q (by omega), fun q hq => od q (by omega)⟩

/-- EVERYTHING THE CONVOLUTIONAL ENCODER DOES. -/
theorem convolve_exit (buf : BitVec 88) : LoopExit (inputBit buf) (convolve buf) :=
  convLoop_exit buf 88 0 _ rfl (by omega)
    ⟨rfl, rfl, fun h => absurd rfl h, fun _ => ⟨rfl, rfl⟩, fun _ h => absurd h (by omega), fun _ h => absurd h (by omega)⟩

end Sys2Proof.Machine
end

