-- ==== Sys2Proof/Laws/Decode.lean ====
section
/-! SUPPORT. The word of a request and the request of a word are inverse to each other. -/

namespace Sys2Proof

/-- The low part of a concatenation. -/
theorem extract_append_low {m n : Nat} (x : BitVec m) (y : BitVec n) : (x ++ y).extractLsb' 0 n = y := by
  apply BitVec.eq_of_getLsbD_eq
  intro i hi
  simp [BitVec.getLsbD_append, hi]

/-- A slice above the low part of a concatenation. -/
theorem extract_append_high {m n : Nat} (x : BitVec m) (y : BitVec n) (k l : Nat) :
    (x ++ y).extractLsb' (n + k) l = x.extractLsb' k l := by
  apply BitVec.eq_of_getLsbD_eq
  intro i hi
  have h1 : ¬ n + k + i < n := by omega
  have h2 : n + k + i - n = k + i := by omega
  simp [BitVec.getLsbD_append, hi, h1, h2]

theorem Request.ofWord_toWord (r : Request) : Request.ofWord r.toWord = r := by
  obtain ⟨op, callLen, call, loc, power, char, msg, bits⟩ := r
  simp only [Request.ofWord, Request.toWord, Request.mk.injEq]
  have up := @extract_append_high
  refine ⟨extract_append_low _ op, ?_, ?_, ?_, ?_, ?_, ?_, ?_⟩
  · exact (up _ op 0 8).trans (extract_append_low _ callLen)
  · exact (up _ op 8 48).trans ((up _ callLen 0 48).trans (extract_append_low _ call))
  · exact (up _ op 56 32).trans ((up _ callLen 48 32).trans ((up _ call 0 32).trans (extract_append_low _ loc)))
  · exact (up _ op 88 8).trans ((up _ callLen 80 8).trans ((up _ call 32 8).trans ((up _ loc 0 8).trans
      (extract_append_low _ power))))
  · exact (up _ op 96 8).trans ((up _ callLen 88 8).trans ((up _ call 40 8).trans ((up _ loc 8 8).trans
      ((up _ power 0 8).trans (extract_append_low _ char)))))
  · exact (up _ op 104 56).trans ((up _ callLen 96 56).trans ((up _ call 48 56).trans ((up _ loc 16 56).trans
      ((up _ power 8 56).trans ((up _ char 0 56).trans (extract_append_low _ msg))))))
  · exact (up _ op 160 162).trans ((up _ callLen 152 162).trans ((up _ call 104 162).trans ((up _ loc 72 162).trans
      ((up _ power 64 162).trans ((up _ char 56 162).trans ((up bits msg 0 162).trans
        (BitVec.extractLsb'_eq_self)))))))

/-- A word is the concatenation of its low `n` bits and the rest. -/
theorem append_slices {l m n t : Nat} (w : BitVec t) (x : BitVec m) (h : x = w.extractLsb' (l + n) m) :
    x ++ w.extractLsb' l n = w.extractLsb' l (m + n) := by
  subst h
  apply BitVec.eq_of_getLsbD_eq
  intro i hi
  by_cases hn : i < n
  · simp only [BitVec.getLsbD_append, BitVec.getLsbD_extractLsb', hn, hi, decide_true, if_true]
  · have h1 : l + n + (i - n) = l + i := by omega
    have h2 : i - n < m := by omega
    simp only [BitVec.getLsbD_append, BitVec.getLsbD_extractLsb', hn, hi, h1, h2, decide_true, if_false]

theorem Request.toWord_ofWord (w : CommandWord) : (Request.ofWord w).toWord = w := by
  simp only [Request.ofWord, Request.toWord]
  have h := append_slices (l := 0) (n := 4) (m := 322) w _
    (append_slices (l := 4) (n := 8) (m := 314) w _
      (append_slices (l := 12) (n := 48) (m := 266) w _
        (append_slices (l := 60) (n := 32) (m := 234) w _
          (append_slices (l := 92) (n := 8) (m := 226) w _
            (append_slices (l := 100) (n := 8) (m := 218) w _
              (append_slices (l := 108) (n := 56) (m := 162) w _ rfl))))))
  exact h.trans BitVec.extractLsb'_eq_self

end Sys2Proof
end

