-- ==== Sys2Proof/Laws/HostPort.lean ====
section
/-! SUPPORT. When the operand ports are the ones a string asks for (70_reset_and_hazards.md R272 H3, H4). -/

namespace Sys2Proof.Machine

/-- The callsign check of `issue`, as numbers and bytes. -/
theorem callPresented_iff (callsign : List Byte) (r : Request) :
    callPresented callsign r = true ↔ r.callLen.toNat = min callsign.length 255 ∧
      ∀ k, k < 6 → k < callsign.length → byteAt r.call k = callsign.getD k 0 := by
  have len : (BitVec.ofNat 8 (min callsign.length 255)).toNat = min callsign.length 255 := by
    rw [BitVec.toNat_ofNat]; omega
  simp only [callPresented, callOperand, Bool.and_eq_true, beq_iff_eq, List.all_eq_true, List.mem_range]
  refine and_congr ⟨fun h => by rw [h, len], fun h => BitVec.eq_of_toNat_eq (h.trans len.symm)⟩
    ⟨fun h k hk hk' => h k (by omega), fun h k hk => h k (by omega) (by omega)⟩

/-- The locator check of `issue`, as bytes. -/
theorem locPresented_iff (locator : List Byte) (r : Request) :
    r.loc = bytesOf (fun k => locator.getD k 0) 32 ↔ ∀ k, k < 4 → byteAt r.loc k = locator.getD k 0 :=
  eq_bytesOf_iff (n := 4) r.loc _

end Sys2Proof.Machine
end

