-- ==== Sys2Proof/Laws/Interleaver.lean ====
section
/-! SUPPORT. What the interleaving loop leaves (43_channel_interleaver.md R173): each output position holds the coded bit
that was placed there. -/

namespace Sys2Proof.Machine

/-- The placements of the loop: (source index p, position r) for `n` indices from `j` on, the next source index being `p`. -/
def placementsFrom : (n : Nat) → (j p : Nat) → List (Nat × Nat)
  | 0, _, _ => []
  | n + 1, j, p =>
    let r := (rev8 (BitVec.ofNat 8 j)).toNat
    if r < 162 then
      if p + 1 = 162 then [(p, r)] else (p, r) :: placementsFrom n (j + 1) (p + 1)
    else placementsFrom n (j + 1) p

/-- The placements of the whole loop, in the order they are made. -/
def placements : List (Nat × Nat) := placementsFrom 255 0 0

/-- Writing the placed bits one after another. -/
def place (coded : BitSeq) : List (Nat × Nat) → BitSeq → BitSeq
  | [], v => v
  | (p, r) :: rest, v => place coded rest (setElement v r (coded.getLsbD p))

theorem interleaveLoop_inter (coded : BitSeq) (n j : Nat) (c : InterRegs) :
    (interleaveLoop coded n j c).inter = place coded (placementsFrom n j c.p) c.inter := by
  induction n generalizing j c with
  | zero => rfl
  | succ n ih =>
    rw [interleaveLoop, placementsFrom]
    simp only
    split
    · split
      · rfl
      · rw [ih]; rfl
    · rw [ih]

theorem getLsbD_place_of_not_mem (coded : BitSeq) (l : List (Nat × Nat)) (v : BitSeq) (q : Nat)
    (h : ∀ x ∈ l, x.2 ≠ q) : (place coded l v).getLsbD q = v.getLsbD q := by
  induction l generalizing v with
  | nil => rfl
  | cons x rest ih =>
    rw [place, ih _ (fun y hy => h y (List.mem_cons_of_mem _ hy)), getLsbD_setElement, if_neg]
    rintro ⟨rfl, _⟩
    exact h x List.mem_cons_self rfl

theorem getLsbD_place_of_mem (coded : BitSeq) (l : List (Nat × Nat)) (v : BitSeq) (p r : Nat) (hr : r < 162)
    (h : (p, r) ∈ l) (hl : (l.map Prod.snd).Nodup) : (place coded l v).getLsbD r = coded.getLsbD p := by
  induction l generalizing v with
  | nil => cases h
  | cons x rest ih =>
    rw [List.map_cons, List.nodup_cons] at hl
    rcases List.mem_cons.1 h with rfl | h
    · rw [place, getLsbD_place_of_not_mem, getLsbD_setElement, if_pos ⟨rfl, hr⟩]
      intro y hy e
      exact hl.1 (List.mem_map.2 ⟨y, hy, e⟩)
    · exact ih _ h hl.2

/-- No position is written twice. -/
theorem placements_nodup : (placements.map Prod.snd).Nodup := by decide +kernel

/-- 162 bits are placed, source indices 0..161 in order. -/
theorem placements_sources : placements.map Prod.fst = List.range 162 := by decide +kernel

/-- EVERYTHING THE INTERLEAVER DOES: coded bit p stands at the position where it was placed. -/
theorem getLsbD_interleave (coded : BitSeq) {p r : Nat} (hr : r < 162) (h : (p, r) ∈ placements) :
    (interleave coded).inter.getLsbD r = coded.getLsbD p := by
  rw [interleave, interleaveLoop_inter]
  exact getLsbD_place_of_mem coded placements 0 p r hr h placements_nodup

end Sys2Proof.Machine
end

