-- ==== Sys2Proof/Laws/Operands.lean ====
section
/-! SUPPORT. What the operand forms and the integers of the packer can answer. -/

namespace Sys2Proof.Machine

/-- Everything `num` can do. -/
theorem num_cases (b : Byte) :
    (0x30 ≤ b.toNat ∧ b.toNat ≤ 0x39 ∧ num b = .ok (b.toNat - 0x30)) ∨
    (0x41 ≤ b.toNat ∧ b.toNat ≤ 0x5A ∧ num b = .ok (b.toNat - 0x41 + 10)) ∨
    (b.toNat = 0x20 ∧ num b = .ok 36) ∨
    (¬ (0x30 ≤ b.toNat ∧ b.toNat ≤ 0x39) ∧ ¬ (0x41 ≤ b.toNat ∧ b.toNat ≤ 0x5A) ∧ b.toNat ≠ 0x20 ∧
      num b = .error (.invalidChar b)) := by
  revert b; decide +kernel

/-- Everything `locChar` can do. -/
theorem locChar_cases (b : Byte) :
    (0x41 ≤ b.toNat ∧ b.toNat ≤ 0x52 ∧ locChar b = .ok (b.toNat - 0x41)) ∨
    (¬ (0x41 ≤ b.toNat ∧ b.toNat ≤ 0x52) ∧ locChar b = .error (.invalidChar b)) := by
  revert b; decide +kernel

theorem num_le {b : Byte} {v : Nat} (h : num b = .ok v) : v ≤ 36 := by
  rcases num_cases b with ⟨_, _, e⟩ | ⟨_, _, e⟩ | ⟨_, e⟩ | ⟨_, _, _, e⟩
  · rw [e] at h; cases h; omega
  · rw [e] at h; cases h; omega
  · rw [e] at h; cases h; omega
  · rw [e] at h; cases h

theorem num_error {b : Byte} {e : EncodeError} (h : num b = .error e) : e = .invalidChar b := by
  rcases num_cases b with ⟨_, _, e'⟩ | ⟨_, _, e'⟩ | ⟨_, e'⟩ | ⟨_, _, _, e'⟩
  · rw [e'] at h; cases h
  · rw [e'] at h; cases h
  · rw [e'] at h; cases h
  · rw [e'] at h; cases h; rfl

theorem locChar_le {b : Byte} {v : Nat} (h : locChar b = .ok v) : v ≤ 17 := by
  rcases locChar_cases b with ⟨_, _, e⟩ | ⟨_, e⟩
  · rw [e] at h; cases h; omega
  · rw [e] at h; cases h

theorem locChar_error {b : Byte} {e : EncodeError} (h : locChar b = .error e) : e = .invalidChar b := by
  rcases locChar_cases b with ⟨_, _, e'⟩ | ⟨_, e'⟩
  · rw [e'] at h; cases h
  · rw [e'] at h; cases h; rfl

/-- `callChar` answers a value of the class of position `k`. -/
theorem callChar_ok_iff {k : Nat} {b : Byte} {v : Nat} :
    callChar k b = .ok v ↔ num b = .ok v ∧ (k = 2 → v ≤ 9) ∧ (3 ≤ k → 10 ≤ v) := by
  unfold callChar
  cases h : num b with
  | error e => simp
  | ok w =>
    simp only [Except.ok.injEq]
    split
    · simp only [reduceCtorEq, false_iff]; rintro ⟨rfl, h1, _⟩; omega
    · split
      · simp only [reduceCtorEq, false_iff]; rintro ⟨rfl, _, h2⟩; omega
      · simp only [Except.ok.injEq]; constructor
        · rintro rfl; exact ⟨rfl, by omega, by omega⟩
        · exact fun h => h.1

theorem callChar_error {k : Nat} {b : Byte} {e : EncodeError} (h : callChar k b = .error e) :
    e = .invalidChar b := by
  unfold callChar at h
  cases hn : num b with
  | error e' => rw [hn] at h; cases h; exact num_error hn
  | ok w =>
    rw [hn] at h
    simp only at h
    split at h
    · cases h; rfl
    · split at h
      · cases h; rfl
      · cases h

theorem locDigit_ok_iff {b : Byte} {v : Nat} : locDigit b = .ok v ↔ num b = .ok v ∧ v ≤ 9 := by
  unfold locDigit
  cases h : num b with
  | error e => simp
  | ok w =>
    simp only [Except.ok.injEq]
    split
    · simp only [reduceCtorEq, false_iff]; rintro ⟨rfl, h1⟩; omega
    · simp only [Except.ok.injEq]; constructor
      · rintro rfl; exact ⟨rfl, by omega⟩
      · exact fun h => h.1

theorem locDigit_error {b : Byte} {e : EncodeError} (h : locDigit b = .error e) : e = .invalidChar b := by
  unfold locDigit at h
  cases hn : num b with
  | error e' => rw [hn] at h; cases h; exact num_error hn
  | ok w =>
    rw [hn] at h
    simp only at h
    split at h
    · cases h; rfl
    · cases h

/-- A bind of `Except` answers a value exactly when both halves do. -/
theorem bind_ok_iff {ε α β : Type} {x : Except ε α} {f : α → Except ε β} {b : β} :
    (x >>= f) = .ok b ↔ ∃ a, x = .ok a ∧ f a = .ok b := by
  cases x <;> simp [bind, Except.bind]

/-- `callInteger` answers a value exactly when the length is 6 and every position is in its class. -/
theorem callInteger_ok_iff {n : Byte} {call : CallBus} {v : Nat} :
    callInteger n call = .ok v ↔ n = 6#8 ∧ ∃ c0 c1 c2 c3 c4 c5,
      callChar 0 (byteAt call 0) = .ok c0 ∧ callChar 1 (byteAt call 1) = .ok c1 ∧
      callChar 2 (byteAt call 2) = .ok c2 ∧ callChar 3 (byteAt call 3) = .ok c3 ∧
      callChar 4 (byteAt call 4) = .ok c4 ∧ callChar 5 (byteAt call 5) = .ok c5 ∧
      (((((c0 * 36 + c1) * 10 + c2) * 27 + (c3 - 10)) * 27 + (c4 - 10)) * 27 + (c5 - 10)) = v := by
  unfold callInteger
  by_cases h : n = 6#8
  · simp [h, bind_ok_iff]
  · rw [if_pos h]; simp [h]

theorem callInteger_le {n : Byte} {call : CallBus} {v : Nat} (h : callInteger n call = .ok v) :
    v ≤ 262374389 := by
  obtain ⟨_, c0, c1, c2, c3, c4, c5, h0, h1, h2, h3, h4, h5, rfl⟩ := callInteger_ok_iff.1 h
  have b0 := num_le (callChar_ok_iff.1 h0).1
  have b1 := num_le (callChar_ok_iff.1 h1).1
  have b2 := (callChar_ok_iff.1 h2).2.1 rfl
  have b3 := num_le (callChar_ok_iff.1 h3).1
  have b4 := num_le (callChar_ok_iff.1 h4).1
  have b5 := num_le (callChar_ok_iff.1 h5).1
  omega

/-- `locatorParts` answers its four values exactly when every position is in its class. -/
theorem locatorParts_ok_iff {loc : LocBus} {a b c d : Nat} :
    locatorParts loc = .ok (a, b, c, d) ↔
      locChar (byteAt loc 0) = .ok a ∧ locChar (byteAt loc 1) = .ok b ∧
      locDigit (byteAt loc 2) = .ok c ∧ locDigit (byteAt loc 3) = .ok d := by
  unfold locatorParts
  simp only [bind_ok_iff, Except.ok.injEq, Prod.mk.injEq]
  constructor
  · rintro ⟨a', ha, c', hc, b', hb, d', hd, rfl, rfl, rfl, rfl⟩; exact ⟨ha, hb, hc, hd⟩
  · rintro ⟨ha, hb, hc, hd⟩; exact ⟨a, ha, c, hc, b, hb, d, hd, rfl, rfl, rfl, rfl⟩

theorem locatorIndex_ok_iff {loc : LocBus} {v : Nat} :
    locatorIndex loc = .ok v ↔ ∃ a b c d, locatorParts loc = .ok (a, b, c, d) ∧
      (179 - 10 * a - c) * 180 + 10 * b + d = v := by
  unfold locatorIndex
  cases h : locatorParts loc with
  | error e => simp
  | ok x => obtain ⟨a, b, c, d⟩ := x; simp

theorem locatorIndex_le {loc : LocBus} {v : Nat} (h : locatorIndex loc = .ok v) : v ≤ 32399 := by
  obtain ⟨a, b, c, d, hp, rfl⟩ := locatorIndex_ok_iff.1 h
  obtain ⟨_, hb, _, hd⟩ := locatorParts_ok_iff.1 hp
  have := locChar_le hb
  have := (locDigit_ok_iff.1 hd).2
  omega

/-- A bind of `Except` answers an error exactly when its first half does, or its second after a value. -/
theorem bind_error_iff {ε α β : Type} {x : Except ε α} {f : α → Except ε β} {e : ε} :
    (x >>= f) = .error e ↔ x = .error e ∨ ∃ a, x = .ok a ∧ f a = .error e := by
  cases x <;> simp [bind, Except.bind]

/-- The locator can fail with `InvalidChar` only (41_message_packer.md R127). -/
theorem locatorIndex_error {loc : LocBus} {e : EncodeError} (h : locatorIndex loc = .error e) :
    ∃ b, e = .invalidChar b := by
  unfold locatorIndex at h
  cases hp : locatorParts loc with
  | ok x => rw [hp] at h; cases h
  | error e' =>
    rw [hp] at h
    cases h
    unfold locatorParts at hp
    rcases bind_error_iff.1 hp with h0 | ⟨_, _, hp⟩
    · exact ⟨_, locChar_error h0⟩
    rcases bind_error_iff.1 hp with h1 | ⟨_, _, hp⟩
    · exact ⟨_, locDigit_error h1⟩
    rcases bind_error_iff.1 hp with h2 | ⟨_, _, hp⟩
    · exact ⟨_, locChar_error h2⟩
    rcases bind_error_iff.1 hp with h3 | ⟨_, _, hp⟩
    · exact ⟨_, locDigit_error h3⟩
    · cases hp

/-- The callsign can fail with `InvalidCallsign` or `InvalidChar` only (41_message_packer.md R125). -/
theorem callInteger_error {n : Byte} {call : CallBus} {e : EncodeError} (h : callInteger n call = .error e) :
    e = .invalidCallsign ∨ ∃ b, e = .invalidChar b := by
  unfold callInteger at h
  split at h
  · cases h; exact .inl rfl
  · refine .inr ?_
    rcases bind_error_iff.1 h with h0 | ⟨_, _, h⟩
    · exact ⟨_, callChar_error h0⟩
    rcases bind_error_iff.1 h with h1 | ⟨_, _, h⟩
    · exact ⟨_, callChar_error h1⟩
    rcases bind_error_iff.1 h with h2 | ⟨_, _, h⟩
    · exact ⟨_, callChar_error h2⟩
    rcases bind_error_iff.1 h with h3 | ⟨_, _, h⟩
    · exact ⟨_, callChar_error h3⟩
    rcases bind_error_iff.1 h with h4 | ⟨_, _, h⟩
    · exact ⟨_, callChar_error h4⟩
    rcases bind_error_iff.1 h with h5 | ⟨_, _, h⟩
    · exact ⟨_, callChar_error h5⟩
    · cases h

end Sys2Proof.Machine
end

