-- ==== Sys2Proof/Laws/State.lean ====
section
/-! SUPPORT. One lemma per field per update of the state: each update is read off its definition once, here. -/

namespace Sys2Proof.Machine

@[simp] theorem takeError_config (e : EncodeError) (s : State) : (takeError e s).config = s.config := rfl
@[simp] theorem takeError_control (e : EncodeError) (s : State) : (takeError e s).control = .idle := rfl
@[simp] theorem takeError_done (e : EncodeError) (s : State) : (takeError e s).done = true := rfl
@[simp] theorem takeError_status (e : EncodeError) (s : State) : (takeError e s).status = statusOf e := rfl
@[simp] theorem takeError_errByte (e : EncodeError) (s : State) : (takeError e s).errByte = errByteOf e := rfl
@[simp] theorem takeError_result (e : EncodeError) (s : State) : (takeError e s).result = 0 := rfl
@[simp] theorem takeError_captured (e : EncodeError) (s : State) : (takeError e s).captured = s.captured := rfl
@[simp] theorem takeError_datapath (e : EncodeError) (s : State) : (takeError e s).datapath = s.datapath := rfl
@[simp] theorem takeError_wait (e : EncodeError) (s : State) : (takeError e s).wait = s.wait := rfl
@[simp] theorem takeError_hasBeenReset (e : EncodeError) (s : State) : (takeError e s).hasBeenReset = s.hasBeenReset := rfl
@[simp] theorem takeError_inputs (e : EncodeError) (s : State) : (takeError e s).inputs = s.inputs := rfl
@[simp] theorem takeError_freeCount (e : EncodeError) (s : State) : (takeError e s).freeCount = s.freeCount := rfl

@[simp] theorem respondOk_config (v : ResultBus) (s : State) : (respondOk v s).config = s.config := rfl
@[simp] theorem respondOk_control (v : ResultBus) (s : State) : (respondOk v s).control = .idle := rfl
@[simp] theorem respondOk_done (v : ResultBus) (s : State) : (respondOk v s).done = true := rfl
@[simp] theorem respondOk_status (v : ResultBus) (s : State) : (respondOk v s).status = statusOk := rfl
@[simp] theorem respondOk_errByte (v : ResultBus) (s : State) : (respondOk v s).errByte = 0 := rfl
@[simp] theorem respondOk_result (v : ResultBus) (s : State) : (respondOk v s).result = v := rfl
@[simp] theorem respondOk_captured (v : ResultBus) (s : State) : (respondOk v s).captured = s.captured := rfl
@[simp] theorem respondOk_datapath (v : ResultBus) (s : State) : (respondOk v s).datapath = s.datapath := rfl
@[simp] theorem respondOk_wait (v : ResultBus) (s : State) : (respondOk v s).wait = s.wait := rfl
@[simp] theorem respondOk_hasBeenReset (v : ResultBus) (s : State) : (respondOk v s).hasBeenReset = s.hasBeenReset := rfl
@[simp] theorem respondOk_inputs (v : ResultBus) (s : State) : (respondOk v s).inputs = s.inputs := rfl
@[simp] theorem respondOk_freeCount (v : ResultBus) (s : State) : (respondOk v s).freeCount = s.freeCount := rfl

@[simp] theorem accept_config (r : Request) (s : State) : (accept r s).config = s.config := rfl
@[simp] theorem accept_control (r : Request) (s : State) : (accept r s).control = .busy := rfl
@[simp] theorem accept_done (r : Request) (s : State) : (accept r s).done = false := rfl
@[simp] theorem accept_status (r : Request) (s : State) : (accept r s).status = s.status := rfl
@[simp] theorem accept_errByte (r : Request) (s : State) : (accept r s).errByte = s.errByte := rfl
@[simp] theorem accept_result (r : Request) (s : State) : (accept r s).result = s.result := rfl
@[simp] theorem accept_captured (r : Request) (s : State) : (accept r s).captured = r := rfl
@[simp] theorem accept_datapath (r : Request) (s : State) : (accept r s).datapath = s.datapath := rfl
@[simp] theorem accept_wait (r : Request) (s : State) : (accept r s).wait = s.config.latency r.op - 1 := rfl
@[simp] theorem accept_hasBeenReset (r : Request) (s : State) : (accept r s).hasBeenReset = s.hasBeenReset := rfl
@[simp] theorem accept_inputs (r : Request) (s : State) : (accept r s).inputs = s.inputs := rfl
@[simp] theorem accept_freeCount (r : Request) (s : State) : (accept r s).freeCount = s.freeCount := rfl

@[simp] theorem endCommand_config (s : State) : (endCommand s).config = s.config := rfl
@[simp] theorem endCommand_control (s : State) : (endCommand s).control = s.control := rfl
@[simp] theorem endCommand_done (s : State) : (endCommand s).done = s.done := rfl
@[simp] theorem endCommand_status (s : State) : (endCommand s).status = s.status := rfl
@[simp] theorem endCommand_errByte (s : State) : (endCommand s).errByte = s.errByte := rfl
@[simp] theorem endCommand_result (s : State) : (endCommand s).result = s.result := rfl
@[simp] theorem endCommand_captured (s : State) : (endCommand s).captured = s.captured := rfl
@[simp] theorem endCommand_datapath (s : State) : (endCommand s).datapath = unspecifiedDatapath s.freeCount := rfl
@[simp] theorem endCommand_wait (s : State) : (endCommand s).wait = s.wait := rfl
@[simp] theorem endCommand_hasBeenReset (s : State) : (endCommand s).hasBeenReset = s.hasBeenReset := rfl
@[simp] theorem endCommand_inputs (s : State) : (endCommand s).inputs = s.inputs := rfl
@[simp] theorem endCommand_freeCount (s : State) : (endCommand s).freeCount = s.freeCount + 1 := rfl

@[simp] theorem resetEdge_config (s : State) : (resetEdge s).config = s.config := rfl
@[simp] theorem resetEdge_control (s : State) : (resetEdge s).control = .idle := rfl
@[simp] theorem resetEdge_done (s : State) : (resetEdge s).done = false := rfl
@[simp] theorem resetEdge_status (s : State) : (resetEdge s).status = 0 := rfl
@[simp] theorem resetEdge_errByte (s : State) : (resetEdge s).errByte = 0 := rfl
@[simp] theorem resetEdge_result (s : State) : (resetEdge s).result = 0 := rfl
@[simp] theorem resetEdge_captured (s : State) : (resetEdge s).captured = unspecifiedCapture s.freeCount := rfl
@[simp] theorem resetEdge_datapath (s : State) : (resetEdge s).datapath = unspecifiedDatapath s.freeCount := rfl
@[simp] theorem resetEdge_wait (s : State) : (resetEdge s).wait = 0 := rfl
@[simp] theorem resetEdge_hasBeenReset (s : State) : (resetEdge s).hasBeenReset = true := rfl
@[simp] theorem resetEdge_inputs (s : State) : (resetEdge s).inputs = s.inputs := rfl
@[simp] theorem resetEdge_freeCount (s : State) : (resetEdge s).freeCount = s.freeCount + 1 := rfl

@[simp] theorem afterSampling_config (s : State) : (afterSampling s).config = s.config := rfl
@[simp] theorem afterSampling_control (s : State) : (afterSampling s).control = s.control := rfl
@[simp] theorem afterSampling_done (s : State) : (afterSampling s).done = s.done := rfl
@[simp] theorem afterSampling_status (s : State) : (afterSampling s).status = s.status := rfl
@[simp] theorem afterSampling_errByte (s : State) : (afterSampling s).errByte = s.errByte := rfl
@[simp] theorem afterSampling_result (s : State) : (afterSampling s).result = s.result := rfl
@[simp] theorem afterSampling_captured (s : State) : (afterSampling s).captured = s.captured := rfl
@[simp] theorem afterSampling_datapath (s : State) : (afterSampling s).datapath = s.datapath := rfl
@[simp] theorem afterSampling_wait (s : State) : (afterSampling s).wait = s.wait := rfl
@[simp] theorem afterSampling_hasBeenReset (s : State) : (afterSampling s).hasBeenReset = s.hasBeenReset := rfl
@[simp] theorem afterSampling_inputs (s : State) : (afterSampling s).inputs = s.inputs.tail := rfl
@[simp] theorem afterSampling_freeCount (s : State) : (afterSampling s).freeCount = s.freeCount := rfl

@[simp] theorem withCaptured_config (s : State) (r : Request) : (withCaptured s r).config = s.config := rfl
@[simp] theorem withCaptured_control (s : State) (r : Request) : (withCaptured s r).control = .busy := rfl
@[simp] theorem withCaptured_done (s : State) (r : Request) : (withCaptured s r).done = false := rfl
@[simp] theorem withCaptured_status (s : State) (r : Request) : (withCaptured s r).status = s.status := rfl
@[simp] theorem withCaptured_errByte (s : State) (r : Request) : (withCaptured s r).errByte = s.errByte := rfl
@[simp] theorem withCaptured_result (s : State) (r : Request) : (withCaptured s r).result = s.result := rfl
@[simp] theorem withCaptured_captured (s : State) (r : Request) : (withCaptured s r).captured = r := rfl
@[simp] theorem withCaptured_datapath (s : State) (r : Request) : (withCaptured s r).datapath = s.datapath := rfl
@[simp] theorem withCaptured_wait (s : State) (r : Request) : (withCaptured s r).wait = 0 := rfl
@[simp] theorem withCaptured_hasBeenReset (s : State) (r : Request) : (withCaptured s r).hasBeenReset = true := rfl
@[simp] theorem withCaptured_inputs (s : State) (r : Request) : (withCaptured s r).inputs = quietPorts :: s.inputs := rfl
@[simp] theorem withCaptured_freeCount (s : State) (r : Request) : (withCaptured s r).freeCount = s.freeCount := rfl

end Sys2Proof.Machine
end

