-- ==== Sys2Proof/Laws/Ops.lean ====
section
/-! SUPPORT. What the shared operations and one whole command can do, said once. -/

namespace Sys2Proof.Machine

@[simp] theorem finish_ok (d : Datapath) (layout : Datapath → ResultBus) (s : State) :
    finish (.ok d) layout s = .next (respondOk (layout d) { s with datapath := d }) := rfl

@[simp] theorem finish_error (e : EncodeError) (d : Datapath) (layout : Datapath → ResultBus) (s : State) :
    finish (.error (e, d)) layout s = .next (takeError e { s with datapath := d }) := rfl

/-- The stages as a function of their operands alone: what a stage raises, or the value that it leaves. -/
def outcomeOf (r : Stage) (layout : Datapath → ResultBus) : Except EncodeError ResultBus :=
  match r with
  | .ok d => .ok (layout d)
  | .error (e, _) => .error e

/-- The response registers that an outcome writes (60_exceptions.md R236). -/
def respond (o : Except EncodeError ResultBus) (d : Datapath) (s : State) : State :=
  match o with
  | .ok v => respondOk v { s with datapath := d }
  | .error e => takeError e { s with datapath := d }

/-- Everything `finish` can do. -/
theorem finish_eq_respond (r : Stage) (layout : Datapath → ResultBus) (s : State) :
    ∃ d, finish r layout s = .next (respond (outcomeOf r layout) d s) := by
  cases r with
  | ok d => exact ⟨d, rfl⟩
  | error e => exact ⟨e.2, rfl⟩

@[simp] theorem respond_config (o : Except EncodeError ResultBus) (d : Datapath) (s : State) :
    (respond o d s).config = s.config := by cases o <;> rfl

@[simp] theorem respond_captured (o : Except EncodeError ResultBus) (d : Datapath) (s : State) :
    (respond o d s).captured = s.captured := by cases o <;> rfl

@[simp] theorem respond_control (o : Except EncodeError ResultBus) (d : Datapath) (s : State) :
    (respond o d s).control = .idle := by cases o <;> rfl

@[simp] theorem respond_done (o : Except EncodeError ResultBus) (d : Datapath) (s : State) :
    (respond o d s).done = true := by cases o <;> rfl

@[simp] theorem respond_inputs (o : Except EncodeError ResultBus) (d : Datapath) (s : State) :
    (respond o d s).inputs = s.inputs := by cases o <;> rfl

@[simp] theorem respond_wait (o : Except EncodeError ResultBus) (d : Datapath) (s : State) :
    (respond o d s).wait = s.wait := by cases o <;> rfl

@[simp] theorem respond_hasBeenReset (o : Except EncodeError ResultBus) (d : Datapath) (s : State) :
    (respond o d s).hasBeenReset = s.hasBeenReset := by cases o <;> rfl

@[simp] theorem respond_freeCount (o : Except EncodeError ResultBus) (d : Datapath) (s : State) :
    (respond o d s).freeCount = s.freeCount := by cases o <;> rfl

/-- The response an outcome leaves does not depend on the state it is written into. -/
theorem respond_response (o : Except EncodeError ResultBus) (d d' : Datapath) (s s' : State) :
    (respond o d s).status = (respond o d' s').status ∧ (respond o d s).errByte = (respond o d' s').errByte ∧
      (respond o d s).result = (respond o d' s').result := by
  cases o <;> exact ⟨rfl, rfl, rfl⟩

/-- Every response is legal (10_state.md R25). -/
theorem respond_legal (o : Except EncodeError ResultBus) (d : Datapath) (s : State) :
    ((respond o d s).status ≠ 0 → (respond o d s).result = 0) ∧
      ((respond o d s).status ≠ 1 → (respond o d s).errByte = 0) := by
  cases o with
  | ok v => simp [respond, statusOk]
  | error e => cases e <;> simp [respond, statusOf, errByteOf]

end Sys2Proof.Machine
end

