-- ==== Sys2Proof/Laws/Outcome.lean ====
section
/-! SUPPORT. Everything one command can do: its outcome is a function of its operands and of the configuration alone
(10_state.md R28), and its next state differs from the state before in the response registers, `done`, `state` and the
datapath only. -/

namespace Sys2Proof.Machine

/-- The packed message of a station record, or the first error (41_message_packer.md R133, R134). -/
def packOutcome (n : Byte) (call : CallBus) (loc : LocBus) (power : Byte) : Except EncodeError MsgBus :=
  match callInteger n call with
  | .error e => .error e
  | .ok N =>
    match locatorIndex loc with
    | .error e => .error e
    | .ok m1 => .ok (packMessage (BitVec.ofNat 28 N) (BitVec.ofNat 22 (powerInteger m1 power)))

/-- The symbols of an interleaved sequence; `none` where a parameter has not been fixed. -/
def mapOutcome (config : Configuration) (inter : BitSeq) : Option (Except EncodeError ResultBus) :=
  match config.sync, config.lastSymbolMode with
  | some sync, some mode => some (.ok (symbolsOf (symbolOf mode sync inter) 324))
  | _, _ => none

/-- The outcome of a command; `none` where it needs a parameter that has not been fixed. -/
def commandOutcome (config : Configuration) : Instr → Option (Except EncodeError ResultBus)
  | .encode n c l p =>
    match packOutcome n c l p with
    | .error e => some (.error e)
    | .ok msg => mapOutcome config (interleave (convolve (padMessage msg)).coded).inter
  | .message n c l p => some ((packOutcome n c l p).map (fun msg => msg.setWidth 324))
  | .messageStr n c l p => some ((packOutcome n c l p).map (fun msg => (renderHex msg).setWidth 324))
  | .encNumStr b => some ((num b).map (BitVec.ofNat 324))
  | .encLocChar b => some ((locChar b).map (BitVec.ofNat 324))
  | .encCall n c => some ((callInteger n c).map (BitVec.ofNat 324))
  | .encM1 l => some ((locatorIndex l).map (BitVec.ofNat 324))
  | .encM l p => some ((locatorIndex l).map (fun m1 => BitVec.ofNat 324 (powerInteger m1 p)))
  | .conv msg => some (.ok ((convolve (padMessage msg)).coded.setWidth 324))
  | .interleave bits => some (.ok ((interleave bits).inter.setWidth 324))
  | .map bits => mapOutcome config bits

/-- A number that fits a narrow register is the same number in the result. -/
theorem setWidth_ofNat_of_lt {w n : Nat} (h : n < 2 ^ w) : (BitVec.ofNat w n).setWidth 324 = BitVec.ofNat 324 n := by
  apply BitVec.eq_of_toNat_eq
  simp only [BitVec.toNat_setWidth, BitVec.toNat_ofNat, Nat.mod_eq_of_lt h]

theorem toNat_m1_register {m1 : Nat} (h : m1 ≤ 32399) : (BitVec.ofNat 15 m1).toNat = m1 := by
  rw [BitVec.toNat_ofNat]; exact Nat.mod_eq_of_lt (by omega)

theorem powerInteger_le {m1 : Nat} (h : m1 ≤ 32399) (p : Byte) : powerInteger m1 p ≤ 4147391 := by
  have := p.isLt; unfold powerInteger; omega

/-- Everything ENC_CALL's stage can do. -/
theorem callStage_cases (n : Byte) (call : CallBus) (d : Datapath) :
    (∃ v, callInteger n call = .ok v ∧ callStage n call d = .ok { d with N := BitVec.ofNat 28 v }) ∨
    (∃ e, callInteger n call = .error e ∧ callStage n call d = .error (e, d)) := by
  unfold callStage
  cases callInteger n call with
  | ok v => exact .inl ⟨v, rfl, rfl⟩
  | error e => exact .inr ⟨e, rfl, rfl⟩

/-- Everything ENC_M1's stage can do. -/
theorem locStage_cases (loc : LocBus) (d : Datapath) :
    (∃ v, v ≤ 32399 ∧ locatorIndex loc = .ok v ∧ locStage loc d = .ok { d with m1 := BitVec.ofNat 15 v }) ∨
    (∃ e, locatorIndex loc = .error e ∧ locStage loc d = .error (e, d)) := by
  unfold locStage
  cases h : locatorIndex loc with
  | ok v => exact .inl ⟨v, locatorIndex_le h, rfl, rfl⟩
  | error e => exact .inr ⟨e, rfl, rfl⟩

/-- Everything ENC_M's stages can do. -/
theorem locPowerStage_cases (loc : LocBus) (p : Byte) (d : Datapath) :
    (∃ v, v ≤ 32399 ∧ locatorIndex loc = .ok v ∧ locPowerStage loc p d =
      .ok { d with m1 := BitVec.ofNat 15 v, m := BitVec.ofNat 22 (powerInteger v p) }) ∨
    (∃ e, locatorIndex loc = .error e ∧ locPowerStage loc p d = .error (e, d)) := by
  unfold locPowerStage
  rcases locStage_cases loc d with ⟨v, hv, h, h'⟩ | ⟨e, h, h'⟩
  · refine .inl ⟨v, hv, h, ?_⟩
    rw [h']; simp only [powerStage, toNat_m1_register hv]
  · exact .inr ⟨e, h, by rw [h']⟩

/-- Everything the packer's stages can do. -/
theorem packStage_cases (n : Byte) (call : CallBus) (loc : LocBus) (p : Byte) (d : Datapath) :
    (∃ N m1, callInteger n call = .ok N ∧ locatorIndex loc = .ok m1 ∧ packStage n call loc p d =
      .ok { d with
        N := BitVec.ofNat 28 N
        m1 := BitVec.ofNat 15 m1
        m := BitVec.ofNat 22 (powerInteger m1 p)
        msg := packMessage (BitVec.ofNat 28 N) (BitVec.ofNat 22 (powerInteger m1 p)) }) ∨
    (∃ e d', packOutcome n call loc p = .error e ∧ packStage n call loc p d = .error (e, d')) := by
  unfold packStage packOutcome
  rcases callStage_cases n call d with ⟨N, h, h'⟩ | ⟨e, h, h'⟩
  · rw [h, h']
    rcases locPowerStage_cases loc p { d with N := BitVec.ofNat 28 N } with ⟨m1, _, g, g'⟩ | ⟨e, g, g'⟩
    · exact .inl ⟨N, m1, rfl, g, by simp only [g']⟩
    · exact .inr ⟨e, { d with N := BitVec.ofNat 28 N }, by simp only [g], by simp only [g']⟩
  · exact .inr ⟨e, _, by rw [h], by rw [h']⟩

/-- What `finishMap` answers when both parameters are fixed, and when one is not. -/
theorem finishMap_cases (d : Datapath) (s : State) :
    (∃ o d', mapOutcome s.config d.inter = some o ∧ finishMap d s = .next (respond o d' s)) ∨
    (mapOutcome s.config d.inter = none ∧ finishMap d s = .refused .configurationUnfixed) := by
  unfold finishMap mapOutcome
  cases s.config.sync with
  | none => exact .inr ⟨rfl, rfl⟩
  | some sync =>
    cases s.config.lastSymbolMode with
    | none => exact .inr ⟨rfl, rfl⟩
    | some mode => exact .inl ⟨.ok (symbolsOf (symbolOf mode sync d.inter) 324), mapStage mode sync d, rfl, rfl⟩

/-- EVERYTHING A COMMAND CAN DO. It answers the response of its outcome, and changes nothing but the response registers,
`done`, `state` and the datapath; or it is refused because a parameter it uses has not been fixed. -/
theorem exec_cases (i : Instr) (s : State) :
    (∃ o d, commandOutcome s.config i = some o ∧ exec i s = .next (respond o d s)) ∨
    (commandOutcome s.config i = none ∧ exec i s = .refused .configurationUnfixed) := by
  cases i with
  | encode n c l p =>
    simp only [exec, execEncode, commandOutcome]
    rcases packStage_cases n c l p s.datapath with ⟨N, m1, h, h', h''⟩ | ⟨e, d', h, h'⟩
    · rw [h'']
      simp only [packOutcome, h, h']
      generalize hd : interleaveStage _ = d
      have hi := congrArg Datapath.inter hd
      simp only [interleaveStage, convStage] at hi
      rw [hi]
      exact finishMap_cases d s
    · rw [h, h']; exact .inl ⟨_, d', rfl, rfl⟩
  | message n c l p =>
    refine .inl ?_
    simp only [exec, execMessage, commandOutcome]
    rcases packStage_cases n c l p s.datapath with ⟨N, m1, h, h', h''⟩ | ⟨e, d', h, h'⟩
    · rw [h'']; simp only [packOutcome, h, h']
      exact ⟨_, _, rfl, rfl⟩
    · rw [h, h']; exact ⟨_, d', rfl, rfl⟩
  | messageStr n c l p =>
    refine .inl ?_
    simp only [exec, execMessageStr, commandOutcome]
    rcases packStage_cases n c l p s.datapath with ⟨N, m1, h, h', h''⟩ | ⟨e, d', h, h'⟩
    · rw [h'']; simp only [packOutcome, h, h']
      exact ⟨_, _, rfl, rfl⟩
    · rw [h, h']; exact ⟨_, d', rfl, rfl⟩
  | encNumStr b =>
    refine .inl ⟨_, s.datapath, rfl, ?_⟩
    simp only [exec, execEncNumStr, finishValue]
    cases num b <;> rfl
  | encLocChar b =>
    refine .inl ⟨_, s.datapath, rfl, ?_⟩
    simp only [exec, execEncLocChar, finishValue]
    cases locChar b <;> rfl
  | encCall n c =>
    simp only [exec, execEncCall, commandOutcome]
    rcases callStage_cases n c s.datapath with ⟨v, h, h'⟩ | ⟨e, h, h'⟩
    · rw [h, h']
      refine .inl ⟨_, { s.datapath with N := BitVec.ofNat 28 v }, rfl, ?_⟩
      have := callInteger_le h
      simp only [finish_ok, respond, Except.map, setWidth_ofNat_of_lt (w := 28) (n := v) (by omega)]
    · rw [h, h']; exact .inl ⟨_, _, rfl, rfl⟩
  | encM1 l =>
    simp only [exec, execEncM1, commandOutcome]
    rcases locStage_cases l s.datapath with ⟨v, hv, h, h'⟩ | ⟨e, h, h'⟩
    · rw [h, h']
      refine .inl ⟨_, { s.datapath with m1 := BitVec.ofNat 15 v }, rfl, ?_⟩
      simp only [finish_ok, respond, Except.map, setWidth_ofNat_of_lt (w := 15) (n := v) (by omega)]
    · rw [h, h']; exact .inl ⟨_, _, rfl, rfl⟩
  | encM l p =>
    simp only [exec, execEncM, commandOutcome]
    rcases locPowerStage_cases l p s.datapath with ⟨v, hv, h, h'⟩ | ⟨e, h, h'⟩
    · rw [h, h']
      refine .inl ⟨_, { s.datapath with m1 := BitVec.ofNat 15 v, m := BitVec.ofNat 22 (powerInteger v p) }, rfl, ?_⟩
      have := powerInteger_le hv p
      simp only [finish_ok, respond, Except.map, setWidth_ofNat_of_lt (w := 22) (n := powerInteger v p) (by omega)]
    · rw [h, h']; exact .inl ⟨_, _, rfl, rfl⟩
  | conv msg =>
    refine .inl ⟨_, convStage msg s.datapath, rfl, ?_⟩
    simp only [exec, execConv, finish_ok, respond, convStage]
  | interleave bits =>
    refine .inl ⟨_, interleaveStage { s.datapath with coded := bits }, rfl, ?_⟩
    simp only [exec, execInterleave, finish_ok, respond, interleaveStage]
  | map bits =>
    simp only [exec, execMap, commandOutcome]
    exact finishMap_cases { s.datapath with inter := bits } s

/-- A command whose outcome is known answers the response of that outcome. -/
theorem exec_of_outcome {i : Instr} {s : State} {o : Except EncodeError ResultBus}
    (h : commandOutcome s.config i = some o) : ∃ d, exec i s = .next (respond o d s) := by
  rcases exec_cases i s with ⟨o', d, ho, e⟩ | ⟨ho, _⟩
  · rw [h] at ho; cases ho; exact ⟨d, e⟩
  · rw [h] at ho; cases ho

/-- No command raises `IllegalOp`: that status is the decoder's alone (60_exceptions.md R232). -/
theorem commandOutcome_ne_illegalOp (config : Configuration) (i : Instr) :
    commandOutcome config i ≠ some (.error .illegalOp) := by
  have map_error {α : Type} (x : Except EncodeError α) (f : α → ResultBus) (h : x ≠ .error .illegalOp) :
      some (x.map f) ≠ some (.error .illegalOp) := by
    cases x with
    | ok v => intro h; cases h
    | error e => intro h'; cases h'; exact h rfl
  have call n c : callInteger n c ≠ .error .illegalOp := fun h => by
    rcases callInteger_error h with h | ⟨_, h⟩ <;> cases h
  have loc l : locatorIndex l ≠ .error .illegalOp := fun h => by
    obtain ⟨_, h⟩ := locatorIndex_error h; cases h
  have pack n c l p : packOutcome n c l p ≠ .error .illegalOp := by
    unfold packOutcome
    cases hc : callInteger n c with
    | error e => intro h; cases h; exact call n c hc
    | ok v =>
      cases hl : locatorIndex l with
      | error e => intro h; cases h; exact loc l hl
      | ok w => intro h; cases h
  have symbols inter : mapOutcome config inter ≠ some (.error .illegalOp) := by
    unfold mapOutcome
    cases config.sync <;> cases config.lastSymbolMode <;> intro h <;> cases h
  cases i with
  | encode n c l p =>
    cases h : packOutcome n c l p with
    | error e => simp only [commandOutcome, h]; intro h'; cases h'; exact pack n c l p h
    | ok msg => simp only [commandOutcome, h]; exact symbols _
  | message n c l p => exact map_error _ _ (pack n c l p)
  | messageStr n c l p => exact map_error _ _ (pack n c l p)
  | encNumStr b => exact map_error _ _ (fun h => by have := num_error h; cases this)
  | encLocChar b => exact map_error _ _ (fun h => by have := locChar_error h; cases this)
  | encCall n c => exact map_error _ _ (call n c)
  | encM1 l => exact map_error _ _ (loc l)
  | encM l p => exact map_error _ _ (loc l)
  | conv msg => intro h; cases h
  | interleave bits => intro h; cases h
  | map bits => exact symbols bits

/-- No command faults. -/
theorem exec_ne_fault (i : Instr) (s : State) (r : Fault) : exec i s ≠ .fault r := by cases r

end Sys2Proof.Machine
end

