-- ==== Sys2Proof/Laws/Packer.lean ====
section
/-! SUPPORT. The bits and bytes of the packed message (41_message_packer.md R132, R137). -/

namespace Sys2Proof.Machine

/-- Byte 0 of a concatenation whose low part is a byte. -/
theorem byteAt_append_zero {m : Nat} (x : BitVec m) (y : Byte) : byteAt (x ++ y) 0 = y := extract_append_low x y

/-- Byte k + 1 of a concatenation whose low part is a byte. -/
theorem byteAt_append_succ {m : Nat} (x : BitVec m) (y : Byte) (k : Nat) : byteAt (x ++ y) (k + 1) = byteAt x k := by
  unfold byteAt
  rw [show 8 * (k + 1) = 8 + 8 * k by omega]
  exact extract_append_high x y (8 * k) 8

/-- Every byte of the packed message. -/
theorem byteAt_packMessage (n : BitVec 28) (m : BitVec 22) :
    byteAt (packMessage n m) 0 = n.extractLsb' 20 8 ∧
    byteAt (packMessage n m) 1 = n.extractLsb' 12 8 ∧
    byteAt (packMessage n m) 2 = n.extractLsb' 4 8 ∧
    byteAt (packMessage n m) 3 = n.extractLsb' 0 4 ++ m.extractLsb' 18 4 ∧
    byteAt (packMessage n m) 4 = m.extractLsb' 10 8 ∧
    byteAt (packMessage n m) 5 = m.extractLsb' 2 8 ∧
    byteAt (packMessage n m) 6 = m.extractLsb' 0 2 ++ 0#6 := by
  unfold packMessage
  have up {w : Nat} (x : BitVec w) (y : Byte) (k : Nat) : byteAt (x ++ y) (k + 1) = byteAt x k :=
    byteAt_append_succ x y k
  have low {w : Nat} (x : BitVec w) (y : Byte) : byteAt (x ++ y) 0 = y := byteAt_append_zero x y
  refine ⟨low _ _, ?_, ?_, ?_, ?_, ?_, ?_⟩
  · exact (up _ _ 0).trans (low _ _)
  · exact (up _ _ 1).trans ((up _ _ 0).trans (low _ _))
  · exact (up _ _ 2).trans ((up _ _ 1).trans ((up _ _ 0).trans (low _ _)))
  · exact (up _ _ 3).trans ((up _ _ 2).trans ((up _ _ 1).trans ((up _ _ 0).trans (low _ _))))
  · exact (up _ _ 4).trans ((up _ _ 3).trans ((up _ _ 2).trans ((up _ _ 1).trans ((up _ _ 0).trans (low _ _)))))
  · exact (up _ _ 5).trans ((up _ _ 4).trans ((up _ _ 3).trans ((up _ _ 2).trans ((up _ _ 1).trans
      ((up _ _ 0).trans BitVec.extractLsb'_eq_self)))))

/-- Every byte of the rendering. -/
theorem byteAt_renderHex (msg : MsgBus) {q : Nat} (h : q < 20) : byteAt (renderHex msg) q = hexByte msg q :=
  byteAt_bytesOf (hexByte msg) (by omega)

/-- A byte of a bus keeps its place in a wider one. -/
theorem byteAt_setWidth {m n : Nat} (v : BitVec m) {k : Nat} (h : 8 * k + 8 ≤ n) : byteAt (v.setWidth n) k = byteAt v k := by
  apply BitVec.eq_of_getLsbD_eq
  intro b hb
  have h1 : 8 * k + b < n := by omega
  simp only [getLsbD_byteAt, BitVec.getLsbD_setWidth, hb, h1, decide_true, Bool.true_and]

end Sys2Proof.Machine
end

