-- ==== Sys2Proof/Laws/PerInstr.lean ====
section
/-! SUPPORT. Statements about every instruction as syntax, one lemma per constructor. -/

/-- The port tuple of a command holds 0 on every port the command does not read (30_encoding.md R79). -/
def Sys2Proof.Laws.Canonical.Statement (i : Sys2Proof.Instr) : Prop := (Sys2Proof.encode i).wellFormed = true

namespace Sys2Proof.Laws.Canonical

theorem encode (n : Byte) (c : CallBus) (l : LocBus) (p : Byte) : Statement (.encode n c l p) := rfl
theorem message (n : Byte) (c : CallBus) (l : LocBus) (p : Byte) : Statement (.message n c l p) := rfl
theorem messageStr (n : Byte) (c : CallBus) (l : LocBus) (p : Byte) : Statement (.messageStr n c l p) := rfl
theorem encNumStr (b : Byte) : Statement (.encNumStr b) := rfl
theorem encLocChar (b : Byte) : Statement (.encLocChar b) := rfl
theorem encCall (n : Byte) (c : CallBus) : Statement (.encCall n c) := rfl
theorem encM1 (l : LocBus) : Statement (.encM1 l) := rfl
theorem encM (l : LocBus) (p : Byte) : Statement (.encM l p) := rfl
theorem conv (m : MsgBus) : Statement (.conv m) := rfl
theorem interleave (b : BitSeq) : Statement (.interleave b) := rfl
theorem map (b : BitSeq) : Statement (.map b) := rfl

end Sys2Proof.Laws.Canonical

/-- The decoder reads a command's port tuple back (30_encoding.md R71). -/
def Sys2Proof.Laws.ReadsBack.Statement (i : Sys2Proof.Instr) : Prop := Sys2Proof.decode (Sys2Proof.encode i) = .ok i

namespace Sys2Proof.Laws.ReadsBack

theorem encode (n : Byte) (c : CallBus) (l : LocBus) (p : Byte) : Statement (.encode n c l p) := rfl
theorem message (n : Byte) (c : CallBus) (l : LocBus) (p : Byte) : Statement (.message n c l p) := rfl
theorem messageStr (n : Byte) (c : CallBus) (l : LocBus) (p : Byte) : Statement (.messageStr n c l p) := rfl
theorem encNumStr (b : Byte) : Statement (.encNumStr b) := rfl
theorem encLocChar (b : Byte) : Statement (.encLocChar b) := rfl
theorem encCall (n : Byte) (c : CallBus) : Statement (.encCall n c) := rfl
theorem encM1 (l : LocBus) : Statement (.encM1 l) := rfl
theorem encM (l : LocBus) (p : Byte) : Statement (.encM l p) := rfl
theorem conv (m : MsgBus) : Statement (.conv m) := rfl
theorem interleave (b : BitSeq) : Statement (.interleave b) := rfl
theorem map (b : BitSeq) : Statement (.map b) := rfl

end Sys2Proof.Laws.ReadsBack
end

