-- ==== Sys2Proof/Laws/Step.lean ====
section
/-! SUPPORT. Everything one edge can do, said once. -/

namespace Sys2Proof.Machine

@[simp] theorem afterSampling_sampled_reset (s : State) : (afterSampling s).hasBeenReset = s.hasBeenReset := rfl

/-- The outcome of the captured command; `none` where it needs a parameter that has not been fixed. -/
def requestOutcome (config : Configuration) (r : Request) : Option (Except EncodeError ResultBus) :=
  match decode r with
  | .ok i => commandOutcome config i
  | .error _ => some (.error .illegalOp)

/-- EVERYTHING A COMPLETING EDGE CAN DO. -/
theorem completeEdge_cases (s : State) :
    (∃ o d, requestOutcome s.config s.captured = some o ∧
      completeEdge s = .next (endCommand (respond o d s))) ∨
    (requestOutcome s.config s.captured = none ∧ completeEdge s = .refused .configurationUnfixed) := by
  unfold completeEdge requestOutcome
  cases decode s.captured with
  | error e => exact .inl ⟨_, s.datapath, rfl, rfl⟩
  | ok i =>
    rcases exec_cases i s with ⟨o, d, h, h'⟩ | ⟨h, h'⟩
    · exact .inl ⟨o, d, h, by simp only [h', onNext]⟩
    · exact .inr ⟨h, by simp only [h', onNext]⟩

/-- EVERYTHING A STEP CAN DO: reset, refuse before the first reset, accept, hold, wait, or complete. -/
theorem step_cases (s : State) :
    ((sampledPorts s).rst = true ∧ step s = .next (resetEdge (afterSampling s))) ∨
    ((sampledPorts s).rst = false ∧ s.hasBeenReset = false ∧ step s = .refused .beforeFirstReset) ∨
    ((sampledPorts s).rst = false ∧ s.hasBeenReset = true ∧ s.control = .idle ∧ (sampledPorts s).reqValid = true ∧
      step s = .next (accept (sampledPorts s).req (afterSampling s))) ∨
    ((sampledPorts s).rst = false ∧ s.hasBeenReset = true ∧ s.control = .idle ∧ (sampledPorts s).reqValid = false ∧
      step s = .next (afterSampling s)) ∨
    ((sampledPorts s).rst = false ∧ s.hasBeenReset = true ∧ s.control = .busy ∧ ∃ n, s.wait = n + 1 ∧
      step s = .next { afterSampling s with wait := n }) ∨
    ((sampledPorts s).rst = false ∧ s.hasBeenReset = true ∧ s.control = .busy ∧ s.wait = 0 ∧
      step s = completeEdge (afterSampling s)) := by
  unfold step clockEdge
  cases hr : (sampledPorts s).rst with
  | true => exact .inl ⟨rfl, by simp⟩
  | false =>
    cases hb : s.hasBeenReset with
    | false => exact .inr (.inl ⟨rfl, rfl, by simp [hb]⟩)
    | true =>
      cases hc : s.control with
      | idle =>
        cases hv : (sampledPorts s).reqValid with
        | true => exact .inr (.inr (.inl ⟨rfl, rfl, rfl, rfl, by simp [hb, hc]⟩))
        | false => exact .inr (.inr (.inr (.inl ⟨rfl, rfl, rfl, rfl, by simp [hb, hc]⟩)))
      | busy =>
        cases hw : s.wait with
        | zero => exact .inr (.inr (.inr (.inr (.inr ⟨rfl, rfl, rfl, rfl, by simp [hb, hc, hw]⟩))))
        | succ n => exact .inr (.inr (.inr (.inr (.inl ⟨rfl, rfl, rfl, n, rfl, by simp [hb, hc, hw]⟩))))

/-- The same command under the same configuration has the same outcome in every state. -/
theorem completeEdge_response {s s' : State} (hc : s'.config = s.config) (hr : s'.captured = s.captured) :
    (∃ t t', completeEdge s = .next t ∧ completeEdge s' = .next t' ∧ t'.done = t.done ∧ t'.status = t.status ∧
      t'.errByte = t.errByte ∧ t'.result = t.result) ∨
    (completeEdge s = .refused .configurationUnfixed ∧ completeEdge s' = .refused .configurationUnfixed) := by
  rcases completeEdge_cases s with ⟨o, d, h, e⟩ | ⟨h, e⟩ <;> rcases completeEdge_cases s' with ⟨o', d', h', e'⟩ | ⟨h', e'⟩
  · rw [hc, hr, h] at h'
    cases h'
    have r := respond_response o d' d s' s
    exact .inl ⟨_, _, e, e', by simp, by simpa using r.1, by simpa using r.2.1, by simpa using r.2.2⟩
  · rw [hc, hr, h] at h'; cases h'
  · rw [hc, hr, h] at h'; cases h'
  · exact .inr ⟨e, e'⟩

end Sys2Proof.Machine
end

