-- ==== Sys2Proof/Tests/Slice0.lean ====
section
/-! SUPPORT. Tests on fixed values, each taken from the spec (95_test_vectors.md unless another file is named), the smoke tests of
WellFormed, and for every statement that has hypotheses a witness that meets all of them. -/

namespace Sys2Proof.Tests

open Sys2Proof.Machine Sys2Proof.Spec

-- One theorem after another: compiling many kernel evaluations at once takes a thread, and its stack, for each.
set_option Elab.async false

/-! ### helpers -/

/-- The response that a command leaves at State.reset. -/
def answer (i : Instr) : Option (Nat × Nat × Nat) :=
  match exec i State.reset with
  | .next t => some (t.status.toNat, t.errByte.toNat, t.result.toNat)
  | _ => none

/-- The response of one step on the command of an opcode-table word. -/
def stepAnswer (nbits w : Nat) : Option (Nat × Nat × Nat) :=
  match step (State.reset.withFetchWord nbits w) with
  | .next t => if t.done ∧ t.control = .idle then some (t.status.toNat, t.errByte.toNat, t.result.toNat) else none
  | _ => none

/-- Digits as a number whose element i has `w` bits, element 0 lowest. -/
def lanes (w : Nat) (cs : List Char) : Nat := cs.foldr (fun c acc => acc * 2 ^ w + (c.toNat - 48)) 0

/-- Bytes as a number, byte 0 lowest. -/
def bytesNat (bs : List Nat) : Nat := bs.foldr (fun b acc => acc * 256 + b) 0

/-- `State.reset` with another reading of the last symbol. -/
def inMode (mode : Option LastSymbolMode) : State :=
  { State.reset with config := { Configuration.reference with lastSymbolMode := mode } }

/-- `State.reset` with `ports` on the ports at the next edge. -/
def offered (ports : Ports) : State := { State.reset with inputs := [ports] }

/-- A command in flight at its completing edge. -/
def inFlight (r : Request) : State := { State.reset with captured := r, control := .busy }

/-- The request of a code with every port 0. -/
def bare (op : BitVec 4) : Request := { Request.zero with op := op }

/-- Ports that offer a request. -/
def offer (r : Request) : Ports := { rst := false, reqValid := true, req := r }

/-- Ports with `rst = 1`. -/
def resetPorts : Ports := { rst := true, reqValid := false, req := Request.zero }

/-! ### the constant tables -/

/-- 44_symbol_mapper.md R192, the string. -/
theorem test_refSync : refSync.toNat = lanes 1 ("110000001000111000100101111000000010010100000010110011010001101000011010101010010" ++ "010110001101010001000001001001110110011010001110000010100110000000110101100011000").toList := by decide +kernel

/-- 43_channel_interleaver.md R172. -/
theorem test_rev8 : (List.range 256).map (fun j => (rev8 (BitVec.ofNat 8 j)).toNat) =
    [0, 128, 64, 192, 32, 160, 96, 224, 16, 144, 80, 208, 48, 176, 112, 240]
      ++ [8, 136, 72, 200, 40, 168, 104, 232, 24, 152, 88, 216, 56, 184, 120, 248]
      ++ [4, 132, 68, 196, 36, 164, 100, 228, 20, 148, 84, 212, 52, 180, 116, 244]
      ++ [12, 140, 76, 204, 44, 172, 108, 236, 28, 156, 92, 220, 60, 188, 124, 252]
      ++ [2, 130, 66, 194, 34, 162, 98, 226, 18, 146, 82, 210, 50, 178, 114, 242]
      ++ [10, 138, 74, 202, 42, 170, 106, 234, 26, 154, 90, 218, 58, 186, 122, 250]
      ++ [6, 134, 70, 198, 38, 166, 102, 230, 22, 150, 86, 214, 54, 182, 118, 246]
      ++ [14, 142, 78, 206, 46, 174, 110, 238, 30, 158, 94, 222, 62, 190, 126, 254]
      ++ [1, 129, 65, 193, 33, 161, 97, 225, 17, 145, 81, 209, 49, 177, 113, 241]
      ++ [9, 137, 73, 201, 41, 169, 105, 233, 25, 153, 89, 217, 57, 185, 121, 249]
      ++ [5, 133, 69, 197, 37, 165, 101, 229, 21, 149, 85, 213, 53, 181, 117, 245]
      ++ [13, 141, 77, 205, 45, 173, 109, 237, 29, 157, 93, 221, 61, 189, 125, 253]
      ++ [3, 131, 67, 195, 35, 163, 99, 227, 19, 147, 83, 211, 51, 179, 115, 243]
      ++ [11, 139, 75, 203, 43, 171, 107, 235, 27, 155, 91, 219, 59, 187, 123, 251]
      ++ [7, 135, 71, 199, 39, 167, 103, 231, 23, 151, 87, 215, 55, 183, 119, 247]
      ++ [15, 143, 79, 207, 47, 175, 111, 239, 31, 159, 95, 223, 63, 191, 127, 255] := by decide +kernel

/-- 41_message_packer.md R138. -/
theorem test_hexDig : (List.range 16).map (fun d => (hexDig (BitVec.ofNat 4 d)).toNat) =
    "0123456789ABCDEF".toList.map Char.toNat := by decide +kernel

/-- 42_convolutional_encoder.md R152: the low tap of both polynomials is 1, and so is the high one. -/
theorem test_polys : (poly0.toNat, poly1.toNat) = (0xF2D05351, 0xE4613C47) := by decide

/-! ### decoding: words written out from 30_encoding.md R71 in the port order of assumption log 10 -/

theorem test_decode_encode : decodeTableWord 100 0x1732324651204558334B56060 = some (.encode 6 0x204558334B56 0x32324651 23) := by decide +kernel
theorem test_decode_message : decodeTableWord 100 0x1732324651204558334B56061 = some (.message 6 0x204558334B56 0x32324651 23) := by decide +kernel
theorem test_decode_messageStr : decodeTableWord 100 0xFF32324651204558334B56FF2 = some (.messageStr 255 0x204558334B56 0x32324651 255) := by decide +kernel
theorem test_decode_encNumStr : decodeTableWord 108 0x560000000000000000000000003 = some (.encNumStr 0x56) := by decide +kernel
theorem test_decode_encLocChar : decodeTableWord 108 0x520000000000000000000000004 = some (.encLocChar 0x52) := by decide +kernel
theorem test_decode_encCall : decodeTableWord 60 0x204558334B56065 = some (.encCall 6 0x204558334B56) := by decide +kernel
theorem test_decode_encM1 : decodeTableWord 92 0x32324651000000000000006 = some (.encM1 0x32324651) := by decide +kernel
theorem test_decode_encM : decodeTableWord 100 0x1732324651000000000000007 = some (.encM 0x32324651 23) := by decide +kernel
theorem test_decode_conv : decodeTableWord 164 0xC01585E11C50D5000000000000000000000000008 = some (.conv 0xC01585E11C50D5) := by decide +kernel
theorem test_decode_interleave : decodeTableWord 326 0x200000000000000000000000000000000000000000000000000000000000009 = some (.interleave (BitVec.twoPow 162 85)) := by decide +kernel
theorem test_decode_map : decodeTableWord 326 0x200000000000000000000000000000000000000000000000000000000000000000000000000000000A = some (.map (BitVec.twoPow 162 161)) := by decide +kernel

/-- 30_encoding.md R75. -/
theorem test_decode_reserved : [0xB, 0xC, 0xD, 0xE, 0xF].map (decodeTableWord 8) = List.replicate 5 none := by decide +kernel

/-- 30_encoding.md R70: the lanes of a multi-byte port (20_memory.md R57). -/
theorem test_encode_lanes : byteAt (encodeWord (.encCall 6 (text 48 [0x56, 0x4B, 0x33, 0x58, 0x45, 0x20]))) 0 = 0x65#8 ∧
    (encodeWord (.encCall 6 (text 48 [0x56, 0x4B, 0x33, 0x58, 0x45, 0x20]))).extractLsb' 12 8 = 0x56#8 := by decide +kernel

/-! ### value_encoder: V-VE -/

theorem test_encNumStr_valid : [0x20, 0x30, 0x35, 0x39, 0x41, 0x56, 0x5A].map (fun b => answer (.encNumStr (BitVec.ofNat 8 b))) =
    [36, 0, 5, 9, 10, 31, 35].map (fun v => some (0, 0, v)) := by decide +kernel

theorem test_encNumStr_invalid : [0x00, 0x1F, 0x21, 0x2F, 0x3A, 0x40, 0x5B, 0x61, 0x80, 0xC1, 0xFF].map
    (fun b => answer (.encNumStr (BitVec.ofNat 8 b))) =
    [0x00, 0x1F, 0x21, 0x2F, 0x3A, 0x40, 0x5B, 0x61, 0x80, 0xC1, 0xFF].map (fun b => some (1, b, 0)) := by decide +kernel

theorem test_encLocChar_valid : [0x41, 0x4A, 0x51, 0x52].map (fun b => answer (.encLocChar (BitVec.ofNat 8 b))) =
    [0, 9, 16, 17].map (fun v => some (0, 0, v)) := by decide +kernel

theorem test_encLocChar_invalid : [0x00, 0x20, 0x30, 0x40, 0x53, 0x5A, 0x72, 0xFF].map
    (fun b => answer (.encLocChar (BitVec.ofNat 8 b))) =
    [0x00, 0x20, 0x30, 0x40, 0x53, 0x5A, 0x72, 0xFF].map (fun b => some (1, b, 0)) := by decide +kernel

/-! ### message_packer: V-CALL, V-LOC, V-MSG -/

theorem test_encCall_values : [
    [0x56, 0x4B, 0x33, 0x58, 0x45, 0x20],
    [0x56, 0x4B, 0x33, 0x54, 0x43, 0x50],
    [0x20, 0x47, 0x30, 0x55, 0x50, 0x4C],
    [0x30, 0x30, 0x30, 0x41, 0x41, 0x41],
    [0x20, 0x20, 0x39, 0x20, 0x20, 0x20],
    [0x5A, 0x5A, 0x39, 0x5A, 0x5A, 0x5A],
    [0x39, 0x41, 0x39, 0x41, 0x41, 0x41],
    [0x41, 0x20, 0x33, 0x58, 0x45, 0x20],
    [0x42, 0x30, 0x33, 0x58, 0x45, 0x20]].map (fun c => answer (.encCall 6 (text 48 c))) =
    [223674830, 223671849, 258255956, 0, 262374389, 255090922, 65918367, 78020630, 78020630].map (fun v => some (0, 0, v)) := by decide +kernel

theorem test_encCall_errors : [
    (6, [0x20, 0x39, 0x20, 0x20, 0x20, 0x20]),
    (5, [0x56, 0x4B, 0x33, 0x58, 0x45]),
    (7, [0x56, 0x4B, 0x33, 0x58, 0x45, 0x20]),
    (0, []),
    (6, [0x56, 0x4B, 0x33, 0x58, 0x31, 0x20]),
    (6, [0x56, 0x4B, 0x41, 0x58, 0x45, 0x20]),
    (6, [0x56, 0x20, 0x4B, 0x33, 0x58, 0x45]),
    (6, [0x76, 0x6B, 0x33, 0x78, 0x65, 0x20]),
    (6, [0x56, 0x4B, 0x33, 0x58, 0x45, 0x00]),
    (6, [0x41, 0x2F, 0x33, 0x58, 0x45, 0x20]),
    (255, [0x56, 0x4B, 0x33, 0x58, 0x45, 0x20])].map
      (fun x => answer (.encCall (BitVec.ofNat 8 x.1) (text 48 x.2))) =
    [(1, 0x20), (2, 0x00), (2, 0x00), (2, 0x00), (1, 0x31), (1, 0x41), (1, 0x4B), (1, 0x76), (1, 0x00), (1, 0x2F), (2, 0x00)].map (fun x => some (x.1, x.2, 0)) := by decide +kernel

theorem test_encM1_values : [
    [0x51, 0x46, 0x32, 0x32],
    [0x49, 0x4F, 0x39, 0x31],
    [0x41, 0x41, 0x30, 0x30],
    [0x52, 0x52, 0x39, 0x39],
    [0x52, 0x41, 0x39, 0x30],
    [0x41, 0x52, 0x30, 0x39],
    [0x4A, 0x4A, 0x35, 0x35],
    [0x51, 0x46, 0x32, 0x33]].map (fun l => answer (.encM1 (text 32 l))) =
    [3112, 16341, 32220, 179, 0, 32399, 15215, 3113].map (fun v => some (0, 0, v)) := by decide +kernel

theorem test_encM_values : [
    (23, [0x51, 0x46, 0x32, 0x32]),
    (20, [0x49, 0x4F, 0x39, 0x31]),
    (0, [0x41, 0x41, 0x30, 0x30]),
    (0, [0x52, 0x52, 0x39, 0x39]),
    (0, [0x52, 0x41, 0x39, 0x30]),
    (255, [0x41, 0x52, 0x30, 0x39]),
    (30, [0x4A, 0x4A, 0x35, 0x35]),
    (0, [0x51, 0x46, 0x32, 0x33]),
    (128, [0x51, 0x46, 0x32, 0x32])].map
      (fun x => answer (.encM (text 32 x.2) (BitVec.ofNat 8 x.1))) =
    [398423, 2091732, 4124224, 22976, 64, 4147391, 1947614, 398528, 398528].map (fun v => some (0, 0, v)) := by decide +kernel

theorem test_encM1_errors : [
    [0x53, 0x41, 0x30, 0x30],
    [0x53, 0x53, 0x30, 0x41],
    [0x51, 0x46, 0x41, 0x32],
    [0x51, 0x46, 0x32, 0x41],
    [0x51, 0x53, 0x41, 0x32],
    [0x51, 0x20, 0x32, 0x32],
    [0x71, 0x66, 0x32, 0x32],
    [0x51, 0x46, 0x20, 0x32],
    [0x51, 0x46, 0x32, 0x2F]].map (fun l => answer (.encM1 (text 32 l))) =
    [0x53, 0x53, 0x41, 0x41, 0x41, 0x20, 0x71, 0x20, 0x2F].map (fun e => some (1, e, 0)) := by decide +kernel

/-- V-LOC-E5: position 2 is checked before position 1. -/
theorem test_encM_error : answer (.encM (text 32 [0x51, 0x53, 0x41, 0x32]) 0) = some (1, 0x41, 0) := by decide +kernel

/-- V-MSG-1, through a step. -/
theorem test_message_step : stepAnswer 100 0x1732324651204558334B56061 =
    some (0, 0, bytesNat [0xD5, 0x50, 0x1C, 0xE1, 0x85, 0x15, 0xC0]) := by decide +kernel

/-- V-MSG-5. -/
theorem test_message_maximum : answer (.message 6 (text 48 [0x20, 0x20, 0x39, 0x20, 0x20, 0x20]) (text 32 [0x41, 0x52, 0x30, 0x39]) 255) =
    some (0, 0, bytesNat [0xFA, 0x38, 0x3F, 0x5F, 0xD2, 0x2F, 0xC0]) := by decide +kernel

/-- V-MSG-1. -/
theorem test_messageStr : answer (.messageStr 6 (text 48 [0x56, 0x4B, 0x33, 0x58, 0x45, 0x20]) (text 32 [0x51, 0x46, 0x32, 0x32]) 23) =
    some (0, 0, bytesNat ("D5 50 1C E1 85 15 C0".toList.map Char.toNat)) := by decide +kernel

/-- V-ERR7. -/
theorem test_messageStr_error : answer (.messageStr 6 (text 48 [0x56, 0x4B, 0x33, 0x58, 0x45, 0x20]) (text 32 [0x51, 0x46, 0x32, 0x41]) 23) = some (1, 0x41, 0) := by decide +kernel

/-! ### the encoder, the interleaver, the mapper and the pipeline: V-CONV, V-IL, V-MAP, V-ERR, W1 -/

/-- V-CONV-3, the last meaningful bit, through a step. -/
theorem test_conv_step : stepAnswer 168 0x40000000000000000000000000000000000000008 = some (0, 0, lanes 1 ("000000000000000000000000000000000000000000000000000000000000000000000000000000000" ++ "000000000000000001101010010001100101001011101100001000000100111100010010010111111").toList) := by decide +kernel

/-- V-IL1-p85, through a step. -/
theorem test_interleave_step : stepAnswer 326 0x200000000000000000000000000000000000000000000000000000000000009 = some (0, 0, 2 ^ 161) := by decide +kernel

/-- V-MAP2, all ones under MERGE, through a step. -/
theorem test_map_step : stepAnswer 326 0x3FFFFFFFFFFFFFFFFFFFFFFFFFFFFFFFFFFFFFFFF0000000000000000000000000000000000000000A = some (0, 0, lanes 2 ("332222223222333222322323333222222232232322222232332233232223323222233232323232232" ++ "23233222332323222322222322322333233223323222333222223232233222222233232332223322" ++ "2").toList) := by decide +kernel

/-- V-MAP2 and V-MAP1: the last symbol in the three modes, and symbols 0 and 160. -/
theorem test_map_modes : [LastSymbolMode.merge, .keepInterleaved, .zero].map (fun mode =>
      [(0, true), (160, true), (161, true), (0, false), (161, false)].map (fun x =>
        (symbolOf mode refSync (if x.2 then BitVec.allOnes 162 else 0) x.1).toNat)) =
    [[3, 2, 2, 1, 0], [3, 2, 1, 1, 0], [3, 2, 0, 1, 0]] := by decide +kernel

/-- W1, all 162 symbols, through a step. -/
theorem test_encode_w1 : stepAnswer 100 0x1732324651204558334B56060 = some (0, 0, lanes 2 ("330202021220333222120121311222220232010322000030312213"
    ++ "212001101220233232101032032230132221" ++ "301210001222223003021310332231212223" ++ "132200010120112020000332323302031000").toList) := by decide +kernel

/-- V-ERR1, V-ERR2, V-ERR3: the order of the checks. -/
theorem test_encode_errors : [
      answer (.encode 5 (text 48 [0x56, 0x4B, 0x33, 0x58, 0x45, 0x00]) (text 32 [0x71, 0x66, 0x32, 0x32]) 23),
      answer (.encode 6 (text 48 [0x76, 0x6B, 0x33, 0x78, 0x65, 0x20]) (text 32 [0x71, 0x66, 0x32, 0x32]) 23),
      answer (.encode 6 (text 48 [0x56, 0x4B, 0x33, 0x58, 0x45, 0x20]) (text 32 [0x51, 0x53, 0x41, 0x32]) 23)] =
    [some (2, 0, 0), some (1, 0x76, 0), some (1, 0x41, 0)] := by decide +kernel

/-- V-ERR5, V-ERR6, through a step. -/
theorem test_reserved_step : [0xB, 0xF].map (stepAnswer 8) = [some (3, 0, 0), some (3, 0, 0)] := by decide +kernel

/-! ### command lines: 30_encoding.md R77 and the encodings of section 3 -/

/-- P1 line 3. -/
theorem test_line_call : (parseLine "ENC_CALL call=\"VK3XE \"".toList).map linePorts =
    some (.ok (offer (encode (.encCall 6 (text 48 [0x56, 0x4B, 0x33, 0x58, 0x45, 0x20]))))) := by decide +kernel

/-- V-CALL-E11: `call_len` written beside the string. -/
theorem test_line_callLen : (parseLine "ENC_CALL call=\"VK3XE \", call_len=5".toList).map linePorts =
    some (.ok (offer (encode (.encCall 5 (text 48 [0x56, 0x4B, 0x33, 0x58, 0x45, 0x20]))))) := by decide +kernel

theorem test_line_encode : (parseLine "ENCODE call=\"VK3XE \", loc=\"QF22\", power=23".toList).map linePorts =
    some (.ok (offer (encode (.encode 6 (text 48 [0x56, 0x4B, 0x33, 0x58, 0x45, 0x20]) (text 32 [0x51, 0x46, 0x32, 0x32]) 23)))) := by decide +kernel

theorem test_line_char : (parseLine "ENC_NUM_STR char='V'".toList).map linePorts =
    some (.ok (offer (encode (.encNumStr 0x56)))) := by decide +kernel

theorem test_line_msg_bits : (parseLine "CONV msg=D5501CE18515C0".toList).map linePorts =
      some (.ok (offer (encode (.conv 0xC01585E11C50D5)))) ∧
    (parseLine "MAP bits=ones".toList).map linePorts = some (.ok (offer (encode (.map (BitVec.allOnes 162))))) := by
  decide +kernel

theorem test_line_reserved_reset : (parseLine "OP 0xB".toList).map linePorts = some (.ok (offer (bare 0xB))) ∧
    (parseLine "@reset".toList).map linePorts = some (.ok resetPorts) := by decide +kernel

/-- U1: a locator shorter than 4 is refused before it is issued. -/
theorem test_line_short_locator : (parseLine "ENC_M1 loc=\"QF2\"".toList).map linePorts = some (.error .locatorTooShort) := by
  decide +kernel

/-- Duty H4: a callsign presented with another length byte is refused. -/
theorem test_issue_mispresented : issue [0x56, 0x4B, 0x33, 0x58, 0x45, 0x20] [] (encode (.encCall 5 (text 48 [0x56, 0x4B, 0x33, 0x58, 0x45, 0x20]))) = .error .operandMispresented ∧
    issue [0x56, 0x4B, 0x33, 0x58, 0x45, 0x20] [] (encode (.encCall 6 (text 48 [0x56, 0x4B, 0x33, 0x58, 0x45, 0x20]))) = .ok (encode (.encCall 6 (text 48 [0x56, 0x4B, 0x33, 0x58, 0x45, 0x20]))) := by decide +kernel

/-- U6 and U7: before the first reset edge a read is refused though `done` is 1; after it, while `done` is 0. -/
theorem test_read_refused : readResponse { State.reset with hasBeenReset := false, done := true } = .error .beforeFirstReset ∧
    readResponse State.reset = .error .staleResponse := by decide

/-! ### WellFormed: for each check a term it refuses -/

theorem test_wf_reserved_code : (bare 0xB).wellFormed = false ∧ (bare 0xA).wellFormed = true := by decide
theorem test_wf_stray_callLen : (Request.wellFormed { bare 3 with callLen := 1 }) = false := by decide +kernel
theorem test_wf_stray_call : (Request.wellFormed { bare 6 with call := 1 }) = false := by decide +kernel
theorem test_wf_stray_loc : (Request.wellFormed { bare 5 with loc := 1 }) = false := by decide +kernel
theorem test_wf_stray_power : (Request.wellFormed { bare 6 with power := 1 }) = false := by decide +kernel
theorem test_wf_stray_char : (Request.wellFormed { bare 0 with char := 1 }) = false := by decide +kernel
theorem test_wf_stray_msg : (Request.wellFormed { bare 9 with msg := 1 }) = false := by decide +kernel
theorem test_wf_stray_bits : (Request.wellFormed { bare 8 with bits := 1 }) = false := by decide +kernel

theorem test_wf_line_code : (CommandLine.command 11 .none).wellFormed = false := by decide
theorem test_wf_line_missing : (CommandLine.command 5 .none).wellFormed = false ∧ (CommandLine.command 3 .none).wellFormed = false ∧
    (CommandLine.command 10 .none).wellFormed = false := by decide
theorem test_wf_line_stray_call : (CommandLine.command 3 { LineOperands.none with char := some 0, call := some [] }).wellFormed = false := by
  decide
theorem test_wf_line_callLen : (CommandLine.command 5 { LineOperands.none with call := some [], callLen := some 256 }).wellFormed = false ∧
    (CommandLine.command 5 { LineOperands.none with call := some [], callLen := some 255 }).wellFormed = true := by decide
theorem test_wf_line_loc : (CommandLine.command 6 { LineOperands.none with loc := some [1, 2, 3, 4, 5] }).wellFormed = false ∧
    (CommandLine.command 6 { LineOperands.none with loc := some [1, 2, 3, 4] }).wellFormed = true := by decide
theorem test_wf_line_power : (CommandLine.command 7
    { LineOperands.none with loc := some [1, 2, 3, 4], power := some 256 }).wellFormed = false := by decide
theorem test_wf_line_msg : (CommandLine.command 8 { LineOperands.none with msg := some [1, 2, 3] }).wellFormed = false := by decide
theorem test_wf_line_bits : (CommandLine.command 9 { LineOperands.none with bits := some [true] }).wellFormed = false := by decide
theorem test_wf_line_reserved : (CommandLine.reserved 10).wellFormed = false ∧ (CommandLine.reserved 16).wellFormed = false ∧
    (CommandLine.reserved 11).wellFormed = true := by decide

/-! ### witnesses: for each statement with hypotheses, values that meet them all, clause by clause at the edges -/

/-- `"VK3XE "`, `"QF22"` and their values. -/
def vkCall : CallBus := text 48 [0x56, 0x4B, 0x33, 0x58, 0x45, 0x20]
def vkValues (k : Nat) : Nat := [31, 20, 3, 33, 14, 36].getD k 0
def qfLoc : LocBus := text 32 [0x51, 0x46, 0x32, 0x32]
def qfValues (k : Nat) : Nat := [16, 5, 2, 2].getD k 0

/-- `o` answers a next state that `p` accepts. -/
def nextWith (p : State → Bool) (o : Host.Outcome State Fault Refusal) : Bool :=
  match o with
  | .next t => p t
  | _ => false

theorem next_of {p : State → Bool} {o : Host.Outcome State Fault Refusal} (h : nextWith p o = true) :
    ∃ t, o = .next t ∧ p t = true := by
  cases o with
  | next t => exact ⟨t, rfl, h⟩
  | fault r => cases h
  | refused r => cases h

/-- A next state with the given status. -/
theorem status_of {o : Host.Outcome State Fault Refusal} {st : BitVec 2} (h : nextWith (fun t => t.status == st) o = true) :
    ∃ t, o = .next t ∧ t.status = st := by
  obtain ⟨t, h1, h2⟩ := next_of h
  exact ⟨t, h1, by simpa using h2⟩

/-- Some next state. -/
theorem some_next {o : Host.Outcome State Fault Refusal} (h : nextWith (fun _ => true) o = true) : ∃ t, o = .next t := by
  obtain ⟨t, h, _⟩ := next_of h
  exact ⟨t, h⟩

theorem good_of {call : CallBus} {c : Nat → Nat} (h : ∀ k, k < 6 → callClass k (byteAt call k) (c k)) : goodCall 6#8 call c :=
  ⟨rfl, h⟩

theorem not_alnum {b : Byte} (h : ¬ (0x30 ≤ b.toNat ∧ b.toNat ≤ 0x39) ∧ ¬ (0x41 ≤ b.toNat ∧ b.toNat ≤ 0x5A) ∧ b.toNat ≠ 0x20) :
    ¬ ∃ v, alnum b v := by
  rintro ⟨v, h1 | h1 | h1⟩ <;> omega

theorem not_locLetter {b : Byte} (h : ¬ (0x41 ≤ b.toNat ∧ b.toNat ≤ 0x52)) : ¬ ∃ v, locLetter b v := by
  rintro ⟨v, h1⟩; exact h ⟨h1.1, h1.2.1⟩

theorem vk_good : goodCall 6#8 vkCall vkValues := good_of (by simp only [callClass, alnum]; decide +kernel)

theorem qf_good : goodLoc qfLoc qfValues := by simp only [goodLoc, locClass, locLetter, alnum]; decide +kernel

theorem witness_EncNumStrFollowsItsRule : (bare 3).op = 3#4 ∧ alnum 0x30 0 ∧ alnum 0x39 9 ∧ alnum 0x41 10 ∧ alnum 0x5A 35 ∧
    alnum 0x20 36 ∧ (¬ ∃ v, alnum 0x2F v) ∧ (¬ ∃ v, alnum 0x3A v) ∧ (¬ ∃ v, alnum 0x40 v) ∧ ¬ ∃ v, alnum 0x5B v := by
  refine ⟨rfl, ?_, ?_, ?_, ?_, ?_, not_alnum (by decide), not_alnum (by decide), not_alnum (by decide),
    not_alnum (by decide)⟩ <;> unfold alnum <;> decide

theorem witness_EncLocCharFollowsItsRule : (bare 4).op = 4#4 ∧ locLetter 0x41 0 ∧ locLetter 0x52 17 ∧
    (¬ ∃ v, locLetter 0x40 v) ∧ ¬ ∃ v, locLetter 0x53 v := by
  refine ⟨rfl, ?_, ?_, not_locLetter (by decide), not_locLetter (by decide)⟩ <;> unfold locLetter <;> decide

/-- Length 5; position 0 (`"vK3XE "`); position 5, all the others good (`"VK3XE1"`). -/
theorem witness_EncCallFollowsItsRule : (bare 5).op = 5#4 ∧ goodCall 6#8 vkCall vkValues ∧ callFails 5#8 vkCall 2#2 0#8 ∧
    callFails 6#8 (text 48 [0x76, 0x4B, 0x33, 0x58, 0x45, 0x20]) 1#2 0x76#8 ∧
    callFails 6#8 (text 48 [0x56, 0x4B, 0x33, 0x58, 0x45, 0x31]) 1#2 0x31#8 := by
  refine ⟨rfl, vk_good, .inl ⟨by decide, rfl, rfl⟩,
    .inr ⟨rfl, 0, by decide, fun j h => absurd h (by omega), ?_, rfl, by decide +kernel⟩,
    .inr ⟨rfl, 5, by decide, fun j h => ⟨vkValues j, ?_⟩, ?_, rfl, by decide +kernel⟩⟩
  · rintro ⟨v, h, _⟩; exact not_alnum (by decide +kernel) ⟨v, h⟩
  · revert j; simp only [callClass, alnum]; decide +kernel
  · rintro ⟨v, h, _, h'⟩
    have e : (byteAt (text 48 [0x56, 0x4B, 0x33, 0x58, 0x45, 0x31]) 5).toNat = 0x31 := by decide +kernel
    have := h' (by omega)
    unfold alnum at h
    omega

/-- Positions 0 (`"SA00"`) and, last in the order, 3 (`"QF2A"`). -/
theorem witness_EncM1FollowsItsRule : (bare 6).op = 6#4 ∧ goodLoc qfLoc qfValues ∧
    locFails (text 32 [0x53, 0x41, 0x30, 0x30]) 0x53#8 ∧ locFails (text 32 [0x51, 0x46, 0x32, 0x41]) 0x41#8 := by
  refine ⟨rfl, qf_good, ⟨0, by decide, fun j h => absurd h (by omega), ?_, by decide +kernel⟩,
    ⟨3, by decide, fun j h => ⟨qfValues (locOrder j), ?_⟩, ?_, by decide +kernel⟩⟩
  · rintro ⟨v, h⟩; exact not_locLetter (by decide +kernel) ⟨v, h⟩
  · revert j; simp only [locClass, locLetter, alnum]; decide +kernel
  · rintro ⟨v, h⟩
    have e : (byteAt (text 32 [0x51, 0x46, 0x32, 0x41]) 3).toNat = 0x41 := by decide +kernel
    have h' : alnum (byteAt (text 32 [0x51, 0x46, 0x32, 0x41]) 3) v ∧ v ≤ 9 := h
    unfold alnum at h'
    omega

theorem witness_EncMFollowsItsRule : (bare 7).op = 7#4 ∧ goodLoc qfLoc qfValues ∧
    ∃ loc e, locFails loc e := ⟨rfl, qf_good, _, _, witness_EncM1FollowsItsRule.2.2.1⟩

theorem witness_WrongLengthIsInvalidCallsign : 5#8 ≠ 6#8 ∧ 7#8 ≠ 6#8 ∧
    (∀ i ∈ [Instr.encCall 5 vkCall, .message 5 vkCall qfLoc 23, .messageStr 5 vkCall qfLoc 23, .encode 5 vkCall qfLoc 23],
      i ∈ [Instr.encCall 5 vkCall, .message 5 vkCall qfLoc 23, .messageStr 5 vkCall qfLoc 23, .encode 5 vkCall qfLoc 23]) :=
  ⟨by decide, by decide, fun _ h => h⟩

/-- `"  9   "`, the maximum. -/
theorem witness_CallIntegerRange : ∃ t, exec (.encCall 6 (text 48 [0x20, 0x20, 0x39, 0x20, 0x20, 0x20])) State.reset = .next t ∧
    t.status = 0#2 := status_of (by decide +kernel)

/-- `"AR09"`, the maximum. -/
theorem witness_LocatorIndexRange : ∃ t, exec (.encM1 (text 32 [0x41, 0x52, 0x30, 0x39])) State.reset = .next t ∧
    t.status = 0#2 := status_of (by decide +kernel)

theorem witness_PowerIntegerRange : ∃ t, exec (.encM1 qfLoc) State.reset = .next t ∧ t.status = 0#2 ∧ (60#8).toNat ≤ 60 := by
  obtain ⟨t, h, h'⟩ := status_of (o := exec (.encM1 qfLoc) State.reset) (st := 0#2) (by decide +kernel)
  exact ⟨t, h, h', by decide⟩

theorem witness_MessagePacksBytes : (bare 1).op = 1#4 ∧ goodCall 6#8 vkCall vkValues ∧ goodLoc qfLoc qfValues :=
  ⟨rfl, vk_good, qf_good⟩

theorem witness_MessageStrRendersHex : (bare 2).op = 2#4 ∧ goodCall 6#8 vkCall vkValues ∧ goodLoc qfLoc qfValues :=
  ⟨rfl, vk_good, qf_good⟩

theorem witness_MessageIsBigEndian : ∃ t1 t2, exec (.encCall 6 vkCall) State.reset = .next t1 ∧
    exec (.encM qfLoc 23) State.reset = .next t2 ∧ t1.status = 0#2 ∧ t2.status = 0#2 := by
  obtain ⟨t1, h1, h1'⟩ := status_of (o := exec (.encCall 6 vkCall) State.reset) (st := 0#2) (by decide +kernel)
  obtain ⟨t2, h2, h2'⟩ := status_of (o := exec (.encM qfLoc 23) State.reset) (st := 0#2) (by decide +kernel)
  exact ⟨t1, t2, h1, h2, h1', h2'⟩

/-- `"A 3XE "` and `"B03XE "` (V-CALL-10, V-CALL-11); `"QF22"` with power 128 and `"QF23"` with power 0 (V-LOC-11, V-LOC-8). -/
theorem witness_PackingAliases : ∃ (call call' : CallBus) (c c' : Nat → Nat) (loc' : LocBus) (l' : Nat → Nat),
    goodCall 6#8 call c ∧ goodCall 6#8 call' c' ∧ c 1 = 36 ∧ c' 1 = 0 ∧ c' 0 = c 0 + 1 ∧ (∀ k, 2 ≤ k → c' k = c k) ∧
    goodLoc qfLoc qfValues ∧ goodLoc loc' l' ∧ locIndex l' = locIndex qfValues + 1 ∧ 128 ≤ (128#8).toNat := by
  refine ⟨text 48 [0x41, 0x20, 0x33, 0x58, 0x45, 0x20], text 48 [0x42, 0x30, 0x33, 0x58, 0x45, 0x20],
    fun k => [10, 36, 3, 33, 14, 36].getD k 0, fun k => [11, 0, 3, 33, 14, 36].getD k 0, text 32 [0x51, 0x46, 0x32, 0x33],
    fun k => [16, 5, 2, 3].getD k 0, good_of ?_, good_of ?_, rfl, rfl, rfl, fun k h => ?_, qf_good, ?_, by decide, by decide⟩
  · simp only [callClass, alnum]; decide +kernel
  · simp only [callClass, alnum]; decide +kernel
  · obtain ⟨j, rfl⟩ : ∃ j, k = j + 2 := ⟨k - 2, by omega⟩
    rfl
  · simp only [goodLoc, locClass, locLetter, alnum]; decide +kernel

theorem witness_PackerErrorsInOrder :
    (∀ i ∈ [Instr.message 6 vkCall qfLoc 23, .messageStr 6 vkCall qfLoc 23, .encode 6 vkCall qfLoc 23],
      i ∈ [Instr.message 6 vkCall qfLoc 23, .messageStr 6 vkCall qfLoc 23, .encode 6 vkCall qfLoc 23]) ∧
    callFails 5#8 vkCall 2#2 0#8 ∧ goodCall 6#8 vkCall vkValues ∧ ∃ loc e, locFails loc e :=
  ⟨fun _ h => h, witness_EncCallFollowsItsRule.2.2.1, vk_good, _, _, witness_EncM1FollowsItsRule.2.2.1⟩

/-- Step 31: two messages that differ in the bit 31 steps back only, and two that differ in the newest bit only; step 0. -/
theorem witness_ConvConstraintLength :
    (∀ j, j ≤ 80 → 80 ≤ j + 31 → messageBit (BitVec.twoPow 56 55) j = messageBit (BitVec.twoPow 56 40) j) ∧
    (messageBit (BitVec.twoPow 56 7) 0 ≠ messageBit 0 0 ∧
      ∀ j, j ≤ 31 → 31 ≤ j + 31 → j ≠ 0 → messageBit (BitVec.twoPow 56 7) j = messageBit 0 j) ∧
    (messageBit (BitVec.twoPow 56 24) 31 ≠ messageBit 0 31 ∧
      ∀ j, j ≤ 31 → 31 ≤ j + 31 → j ≠ 31 → messageBit (BitVec.twoPow 56 24) j = messageBit 0 j) ∧
    (messageBit (BitVec.twoPow 56 7) 0 ≠ messageBit 0 0 ∧
      ∀ j, j ≤ 0 → 0 ≤ j + 31 → j ≠ 0 → messageBit (BitVec.twoPow 56 7) j = messageBit 0 j) := by
  refine ⟨fun j h h' => ?_, ⟨by decide +kernel, fun j h _ h' => ?_⟩, ⟨by decide +kernel, fun j h _ h' => ?_⟩,
    ⟨by decide +kernel, fun j h _ h' => absurd (Nat.le_zero.1 h) h'⟩⟩
  · have all : ∀ j, j < 81 → 49 ≤ j → messageBit (BitVec.twoPow 56 55) j = messageBit (BitVec.twoPow 56 40) j := by decide +kernel
    exact all j (by omega) (by omega)
  · have all : ∀ j, j < 32 → j ≠ 0 → messageBit (BitVec.twoPow 56 7) j = messageBit 0 j := by decide +kernel
    exact all j (by omega) h'
  · have all : ∀ j, j < 32 → j ≠ 31 → messageBit (BitVec.twoPow 56 24) j = messageBit 0 j := by decide +kernel
    exact all j (by omega) h'

theorem witness_MapFollowsItsRule : (bare 10).op = 10#4 ∧ (inMode (some .merge)).config.sync = some refSync ∧
    (inMode (some .merge)).config.lastSymbolMode = some .merge ∧
    (inMode (some .keepInterleaved)).config.lastSymbolMode = some .keepInterleaved ∧
    (inMode (some .zero)).config.lastSymbolMode = some .zero := ⟨rfl, rfl, rfl, rfl, rfl⟩

theorem witness_SymbolsRecoverBitsAndSync : (inMode (some .merge)).config.sync = some refSync ∧
    (inMode (some .zero)).config.sync = some refSync ∧ LastSymbolMode.zero ≠ .merge ∧ LastSymbolMode.keepInterleaved ≠ .merge :=
  ⟨rfl, rfl, by decide, by decide⟩

theorem witness_LastSymbolModesAgreeOnZero : (inMode (some .merge)).config.lastSymbolMode = some .merge ∧
    (inMode (some .keepInterleaved)).config.lastSymbolMode = some .keepInterleaved ∧
    (inMode (some .merge)).config.sync = some refSync ∧ (inMode (some .keepInterleaved)).config.sync = some refSync ∧
    (BitVec.twoPow 162 160).getLsbD 161 = false ∧ refSync.getLsbD 161 = false :=
  ⟨rfl, rfl, rfl, rfl, by decide +kernel, by decide +kernel⟩

theorem witness_UnfixedConfigurationIsRefused : (inMode none).config.lastSymbolMode = none ∧
    ({ State.reset with config := { Configuration.reference with sync := none } } : State).config.sync = none ∧
    goodCall 6#8 vkCall vkValues ∧ goodLoc qfLoc qfValues := ⟨rfl, rfl, vk_good, qf_good⟩

theorem witness_EncodeClosedForm : goodCall 6#8 vkCall vkValues ∧ goodLoc qfLoc qfValues ∧
    State.reset.config.sync = some refSync ∧ State.reset.config.lastSymbolMode = some .merge := ⟨vk_good, qf_good, rfl, rfl⟩

theorem witness_StagedCommandsEqualEncode :
    (∃ t, exec (.message 6 vkCall qfLoc 23) State.reset = .next t ∧ t.status = 0#2 ∧
      State.reset.config.sync ≠ none ∧ State.reset.config.lastSymbolMode ≠ none) ∧
    ∃ t, exec (.message 5 vkCall qfLoc 23) State.reset = .next t ∧ t.status ≠ 0#2 := by
  obtain ⟨t1, h1, h1'⟩ := status_of (o := exec (.message 6 vkCall qfLoc 23) State.reset) (st := 0#2) (by decide +kernel)
  obtain ⟨t2, h2, h2'⟩ := status_of (o := exec (.message 5 vkCall qfLoc 23) State.reset) (st := 2#2) (by decide +kernel)
  refine ⟨⟨t1, h1, h1', ?_, ?_⟩, t2, h2, by rw [h2']; decide⟩ <;> simp [State.reset, Configuration.reference]

theorem witness_CommandChangesResponseOnly : (∃ t, exec (.encNumStr 0x30) State.reset = .next t) ∧
    ∃ t, exec (.encNumStr 0x00) State.reset = .next t := ⟨⟨_, rfl⟩, _, rfl⟩

theorem witness_CommandDatapathFrame : (∃ t, exec (.encCall 6 vkCall) State.reset = .next t) ∧
    (∃ t, exec (.encLocChar 0x41) State.reset = .next t) ∧ (∃ t, exec (.encM1 qfLoc) State.reset = .next t) ∧
    (∃ t, exec (.encM qfLoc 23) State.reset = .next t) ∧ (∃ t, exec (.message 6 vkCall qfLoc 23) State.reset = .next t) ∧
    (∃ t, exec (.messageStr 6 vkCall qfLoc 23) State.reset = .next t) ∧ (∃ t, exec (.conv 0x80) State.reset = .next t) ∧
    (∃ t, exec (.interleave 1) State.reset = .next t) ∧ (∃ t, exec (.map 1) State.reset = .next t) ∧
    ∃ t, exec (.encNumStr 0x30) State.reset = .next t :=
  ⟨some_next (by decide +kernel), some_next (by decide +kernel), some_next (by decide +kernel), some_next (by decide +kernel),
    some_next (by decide +kernel), some_next (by decide +kernel), some_next (by decide +kernel), some_next (by decide +kernel),
    some_next (by decide +kernel), some_next (by decide +kernel)⟩

/-- Two states of one configuration with different histories; and a refusal. -/
theorem witness_OutcomeIgnoresHistory :
    (State.reset.config = ({ State.reset with status := 1, errByte := 0x2F, done := true } : State).config ∧
      ∃ t, exec (.encNumStr 0x30) State.reset = .next t) ∧
    ∃ r, exec (.map 0) (inMode none) = .refused r := ⟨⟨rfl, _, rfl⟩, _, rfl⟩

/-- ENC_NUM_STR with and without stray operands. -/
theorem witness_UnreadPortsHaveNoEffect :
    agreeOnRead (encode (.encNumStr 0x30)) { encode (.encNumStr 0x30) with power := 255, bits := 1, callLen := 9 } ∧
    ∃ t, completeEdge { State.reset with captured := encode (.encNumStr 0x30) } = .next t :=
  ⟨by simp [agreeOnRead, encode], _, rfl⟩

/-- A command that answers a next state, and one that is refused. -/
theorem witness_StepRunsCapturedCommand : (sampledPorts (inFlight (bare 3))).rst = false ∧
    (inFlight (bare 3)).hasBeenReset = true ∧ (inFlight (bare 3)).control = .busy ∧ (inFlight (bare 3)).wait = 0 ∧
    decode (inFlight (bare 3)).captured = .ok (.encNumStr 0) ∧
    (∃ t, exec (.encNumStr 0) { inFlight (bare 3) with inputs := (inFlight (bare 3)).inputs.tail } = .next t) ∧
    decode (bare 10) = .ok (.map 0) ∧
    exec (.map 0) { inMode none with captured := bare 10, control := .busy } = .refused .configurationUnfixed :=
  ⟨rfl, rfl, rfl, rfl, rfl, ⟨_, rfl⟩, rfl, rfl⟩

theorem witness_ReservedCodeIsIllegalOp : (sampledPorts (inFlight (bare 11))).rst = false ∧
    (inFlight (bare 11)).hasBeenReset = true ∧ (inFlight (bare 11)).control = .busy ∧ (inFlight (bare 11)).wait = 0 ∧
    11 ≤ (inFlight (bare 11)).captured.op.toNat := ⟨rfl, rfl, rfl, rfl, by decide⟩

/-- An offer to an idle block; an idle block with nothing offered. -/
theorem witness_AcceptanceCapturesPorts :
    ((sampledPorts (offered (offer (bare 3)))).rst = false ∧ (offered (offer (bare 3))).hasBeenReset = true ∧
      (offered (offer (bare 3))).control = .idle ∧ (sampledPorts (offered (offer (bare 3)))).reqValid = true) ∧
    (¬ (State.reset.control = .idle ∧ (sampledPorts State.reset).reqValid = true) ∧ ∃ t, step State.reset = .next t) :=
  ⟨⟨rfl, rfl, rfl, rfl⟩, by decide, _, rfl⟩

theorem witness_ResetEdgeGivesResetValues : (sampledPorts (offered resetPorts)).rst = true := rfl

theorem witness_BootNeedsResetEdge :
    (({ State.reset with hasBeenReset := false } : State).hasBeenReset = false ∧
      (sampledPorts { State.reset with hasBeenReset := false }).rst = false) ∧
    resetPorts.rst = true ∧ (offer (bare 3)).rst = false ∧ (offer (bare 3)).reqValid = true :=
  ⟨⟨rfl, rfl⟩, rfl, rfl, rfl⟩

theorem witness_IdleHoldsEveryRegister : (sampledPorts State.reset).rst = false ∧ State.reset.hasBeenReset = true ∧
    State.reset.control = .idle ∧ (sampledPorts State.reset).reqValid = false := ⟨rfl, rfl, rfl, rfl⟩

theorem witness_BusyIgnoresPorts : (inFlight (bare 3)).control = .busy ∧ (offer (bare 5)).rst = quietPorts.rst := ⟨rfl, rfl⟩

theorem witness_ResponseStaysUntilAcceptance : doneOnlyIdle { State.reset with done := true } ∧
    ({ State.reset with done := true } : State).done = true ∧
    (sampledPorts { State.reset with done := true }).rst = false ∧
    (sampledPorts { State.reset with done := true }).reqValid = false ∧
    ∃ t, step { State.reset with done := true } = .next t := ⟨fun h => (nomatch h), rfl, rfl, rfl, _, rfl⟩

/-- A busy state at its completing edge meets the invariant and steps. -/
theorem witness_ResponseInvariantHolds : ResponseInv (inFlight (bare 3)) ∧ ∃ t, step (inFlight (bare 3)) = .next t :=
  ⟨fun _ => ⟨⟨fun _ => rfl, fun _ => rfl⟩, fun _ => rfl, fun h => (nomatch h)⟩, _, rfl⟩

theorem witness_ConfigurationNeverChanges : ∃ t, step (inFlight (bare 3)) = .next t := ⟨_, rfl⟩

/-- LATENCY 3 for every code, with other requests offered while busy: a command that answers, a reserved code, and a command
refused because a parameter has not been fixed. -/
def waiting (r : Request) (mode : Option LastSymbolMode) : State :=
  { State.reset with
    config := { Configuration.reference with waitEdges := Vector.replicate 16 2, lastSymbolMode := mode }
    inputs := [offer r, offer (bare 5), quietPorts, quietPorts, resetPorts] }

theorem witness_CommandCompletesAfterLatency :
    (∀ r ∈ [bare 3, bare 10, bare 11, bare 15], ∀ mode ∈ [some LastSymbolMode.merge, none],
      (waiting r mode).hasBeenReset = true ∧ (waiting r mode).control = .idle ∧
      (waiting r mode).inputs = offer r :: [offer (bare 5), quietPorts, quietPorts, resetPorts] ∧ (offer r).rst = false ∧
      (offer r).reqValid = true ∧ 2 < (waiting r mode).config.latency r.op ∧
      ∀ q ∈ [offer (bare 5), quietPorts, quietPorts, resetPorts].take ((waiting r mode).config.latency r.op), q.rst = false) ∧
    (decode (bare 3) = .ok (.encNumStr 0) ∧ ∃ u, exec (.encNumStr 0) (waiting (bare 3) none) = .next u) ∧
    (decode (bare 10) = .ok (.map 0) ∧ exec (.map 0) (waiting (bare 10) none) = .refused .configurationUnfixed) ∧
    11 ≤ (bare 11).op.toNat :=
  ⟨by decide +kernel, ⟨rfl, _, rfl⟩, ⟨rfl, rfl⟩, by decide⟩

/-- An accepting edge, an idle edge, and a waiting edge. -/
theorem witness_ResponseWrittenOnlyByCompletionAndReset :
    ∀ s ∈ [offered (offer (bare 3)), State.reset, { inFlight (bare 3) with wait := 1 }],
      (sampledPorts s).rst = false ∧ ¬ (s.control = .busy ∧ s.wait = 0) ∧ nextWith (fun _ => true) (step s) = true := by
  decide +kernel

/-- Before the first reset with `done` 1, and after it with `done` 0 and 1. -/
theorem witness_StaleReadIsRefused : ({ State.reset with hasBeenReset := false, done := true } : State).hasBeenReset = false ∧
    (State.reset.hasBeenReset = true ∧ State.reset.done = false) ∧
    (({ State.reset with done := true } : State).hasBeenReset = true ∧ ({ State.reset with done := true } : State).done = true) :=
  ⟨rfl, ⟨rfl, rfl⟩, rfl, rfl⟩

theorem witness_EncodeGivesDecodedWord : (Request.ofWord 0x560000000000000000000000003).wellFormed = true ∧
    ∃ i, decodeWord 0x560000000000000000000000003 = .ok i :=
  ⟨by decide +kernel, .encNumStr 0x56, by decide +kernel⟩

theorem witness_DecodingIsTotal : (bare 10).op.toNat ≤ 10 ∧ 11 ≤ (bare 11).op.toNat := by decide

/-- Codes that read the locator, codes that read the callsign only, and codes that read neither, reserved ones among them. -/
theorem witness_ShortLocatorIsRefused : ([0x51, 0x46, 0x32] : List Byte).length < 4 ∧
    (bare 0).op.toNat ∈ [0, 1, 2, 6, 7] ∧ (bare 7).op.toNat ∈ [0, 1, 2, 6, 7] ∧
    (bare 5).op.toNat ∉ [0, 1, 2, 6, 7] ∧
    (bare 3).op.toNat ∉ [0, 1, 2, 5, 6, 7] ∧ (bare 10).op.toNat ∉ [0, 1, 2, 5, 6, 7] ∧
    (bare 15).op.toNat ∉ [0, 1, 2, 5, 6, 7] := by decide

/-- A locator of four characters presented otherwise; a callsign presented with the wrong length, and with a wrong last byte,
for ENCODE and ENC_CALL; and both presented as asked. -/
theorem witness_OperandsMustBePresentedAsAsked :
    let vk : List Byte := [0x56, 0x4B, 0x33, 0x58, 0x45, 0x20]
    let qf : List Byte := [0x51, 0x46, 0x32, 0x32]
    (4 ≤ qf.length ∧ ¬ locAsAsked qf (encode (.encM1 (text 32 [0x51, 0x46, 0x32, 0x33])))) ∧
    (locAsAsked qf (encode (.encode 5 vkCall qfLoc 23)) ∧ ¬ callAsAsked vk (encode (.encode 5 vkCall qfLoc 23))) ∧
    ¬ callAsAsked vk (encode (.encCall 6 (text 48 [0x56, 0x4B, 0x33, 0x58, 0x45, 0x21]))) ∧
    locAsAsked qf (encode (.encode 6 vkCall qfLoc 23)) ∧ callAsAsked vk (encode (.encode 6 vkCall qfLoc 23)) := by
  simp only [locAsAsked, callAsAsked]
  decide +kernel

end Sys2Proof.Tests
end

section
/-! SUPPORT. What a command's answer says about the command (10_state.md R25, R28): the inversions of `exec_cases` and
`completeEdge_cases`. -/

namespace Sys2Proof.Machine

/-- A command that answers does so by its outcome. -/
theorem exec_next_inv {i : Instr} {s t : State} (h : exec i s = .next t) :
    ∃ o d, commandOutcome s.config i = some o ∧ t = respond o d s := by
  rcases exec_cases i s with ⟨o, d, ho, e⟩ | ⟨_, e⟩
  · rw [e] at h; cases h; exact ⟨o, d, ho, rfl⟩
  · rw [e] at h; cases h

/-- A command is refused only where a parameter it uses has not been fixed. -/
theorem exec_refused_inv {i : Instr} {s : State} {r : Refusal} (h : exec i s = .refused r) :
    commandOutcome s.config i = none ∧ r = .configurationUnfixed := by
  rcases exec_cases i s with ⟨_, _, _, e⟩ | ⟨ho, e⟩
  · rw [e] at h; cases h
  · rw [e] at h; cases h; exact ⟨ho, rfl⟩

theorem exec_of_no_outcome {i : Instr} {s : State} (h : commandOutcome s.config i = none) :
    exec i s = .refused .configurationUnfixed := by
  rcases exec_cases i s with ⟨_, _, ho, _⟩ | ⟨_, e⟩
  · rw [h] at ho; cases ho
  · exact e

/-- A completing edge that answers does so by the outcome of the captured command. -/
theorem completeEdge_next_inv {s t : State} (h : completeEdge s = .next t) :
    ∃ o d, requestOutcome s.config s.captured = some o ∧ t = endCommand (respond o d s) := by
  rcases completeEdge_cases s with ⟨o, d, ho, e⟩ | ⟨_, e⟩
  · rw [e] at h; cases h; exact ⟨o, d, ho, rfl⟩
  · rw [e] at h; cases h

theorem completeEdge_of_outcome {s : State} {o : Except EncodeError ResultBus}
    (h : requestOutcome s.config s.captured = some o) : ∃ d, completeEdge s = .next (endCommand (respond o d s)) := by
  rcases completeEdge_cases s with ⟨o', d, ho, e⟩ | ⟨ho, _⟩
  · rw [h] at ho; cases ho; exact ⟨d, e⟩
  · rw [h] at ho; cases ho

theorem completeEdge_of_no_outcome {s : State} (h : requestOutcome s.config s.captured = none) :
    completeEdge s = .refused .configurationUnfixed := by
  rcases completeEdge_cases s with ⟨_, _, ho, _⟩ | ⟨_, e⟩
  · rw [h] at ho; cases ho
  · exact e

theorem requestOutcome_of_decode {r : Request} {i : Instr} (h : decode r = .ok i) (config : Configuration) :
    requestOutcome config r = commandOutcome config i := by
  simp only [requestOutcome, h]

/-- The reserved codes (30_encoding.md R75) have the outcome ILLEGAL_OP (60_exceptions.md R232). -/
theorem requestOutcome_of_reserved {r : Request} (h : 11 ≤ r.op.toNat) (config : Configuration) :
    requestOutcome config r = some (.error .illegalOp) := by
  have hd : decode r = .error (.reservedOp r.op) := by
    unfold decode
    split
    case h_12 => rfl
    all_goals omega
  simp only [requestOutcome, hd]

/-- One outcome shows one response, whatever state it is written into. -/
theorem sameResponse_respond (o : Except EncodeError ResultBus) (d d' : Datapath) (s s' : State) :
    sameResponse (respond o d s) (respond o d' s') := by
  cases o <;> exact ⟨rfl, rfl, rfl, rfl⟩

theorem sameResponse.symm {s t : State} (h : sameResponse s t) : sameResponse t s := by
  obtain ⟨hd, hs, he, hr⟩ := h
  exact ⟨hd.symm, hs.symm, he.symm, hr.symm⟩

theorem sameResponse.trans {s t u : State} (h : sameResponse s t) (h' : sameResponse t u) : sameResponse s u := by
  obtain ⟨hd, hs, he, hr⟩ := h
  obtain ⟨hd', hs', he', hr'⟩ := h'
  exact ⟨hd'.trans hd, hs'.trans hs, he'.trans he, hr'.trans hr⟩

theorem respond_eq_answered (o : Except EncodeError ResultBus) (d : Datapath) (s : State) :
    respond o d s =
      Spec.answered s d (respond o d s).status (respond o d s).errByte (respond o d s).result := by
  cases o <;> rfl

@[simp] theorem respond_datapath (o : Except EncodeError ResultBus) (d : Datapath) (s : State) :
    (respond o d s).datapath = d := by
  cases o <;> rfl

/-- Every status but ILLEGAL_OP is at most 2 (10_state.md R26). -/
theorem respond_status_le {o : Except EncodeError ResultBus} (h : o ≠ .error .illegalOp) (d : Datapath) (s : State) :
    (respond o d s).status.toNat ≤ 2 := by
  cases o with
  | ok v => exact Nat.zero_le 2
  | error e =>
    cases e with
    | invalidChar b => exact Nat.le_succ 1
    | invalidCallsign => exact Nat.le_refl 2
    | illegalOp => exact absurd rfl h

end Sys2Proof.Machine
end

section
/-! SUPPORT. The edges of `step_cases` as equations, and the run from an acceptance to its completing edge
(10_state.md R24, R28; assumption log 2). -/

namespace Sys2Proof.Machine

/-- Everything a step that answers can have done: reset, accept, hold, wait, or complete. -/
theorem step_next_inv {s t : State} (h : step s = .next t) :
    ((sampledPorts s).rst = true ∧ t = resetEdge (afterSampling s)) ∨
    (s.hasBeenReset = true ∧ s.control = .idle ∧ (sampledPorts s).reqValid = true ∧
      t = accept (sampledPorts s).req (afterSampling s)) ∨
    t = afterSampling s ∨
    (s.hasBeenReset = true ∧ s.control = .busy ∧ ∃ n, s.wait = n + 1 ∧ t = { afterSampling s with wait := n }) ∨
    (s.control = .busy ∧ s.wait = 0 ∧ completeEdge (afterSampling s) = .next t) := by
  rcases step_cases s with ⟨hr, e⟩ | ⟨-, -, e⟩ | ⟨-, hb, hc, hv, e⟩ | ⟨-, -, -, -, e⟩ | ⟨-, hb, hc, n, hw, e⟩ |
    ⟨-, -, hc, hw, e⟩ <;> rw [e] at h
  · cases h; exact .inl ⟨hr, rfl⟩
  · cases h
  · cases h; exact .inr (.inl ⟨hb, hc, hv, rfl⟩)
  · cases h; exact .inr (.inr (.inl rfl))
  · cases h; exact .inr (.inr (.inr (.inl ⟨hb, hc, n, hw, rfl⟩)))
  · exact .inr (.inr (.inr (.inr ⟨hc, hw, h⟩)))

theorem step_accept {s : State} (hr : (sampledPorts s).rst = false) (hb : s.hasBeenReset = true)
    (hc : s.control = .idle) (hv : (sampledPorts s).reqValid = true) :
    step s = .next (accept (sampledPorts s).req (afterSampling s)) := by
  simp [step, clockEdge, hr, hb, hc, hv]

theorem step_wait {s : State} {n : Nat} (hr : (sampledPorts s).rst = false) (hb : s.hasBeenReset = true)
    (hc : s.control = .busy) (hw : s.wait = n + 1) : step s = .next { afterSampling s with wait := n } := by
  simp [step, clockEdge, hr, hb, hc, hw]

theorem step_complete {s : State} (hr : (sampledPorts s).rst = false) (hb : s.hasBeenReset = true)
    (hc : s.control = .busy) (hw : s.wait = 0) : step s = completeEdge (afterSampling s) := by
  simp [step, clockEdge, hr, hb, hc, hw]

/-- No reset is offered at an edge whose ports are listed with `rst = 0`, nor at one whose ports are at rest. -/
theorem headD_rst_of_take {l : List Ports} {n : Nat} (h : ∀ q ∈ l.take (n + 1), q.rst = false) :
    ((l.drop n).headD quietPorts).rst = false := by
  cases hl : l.drop n with
  | nil => rfl
  | cons q later =>
    refine h q (List.mem_of_getElem? (i := n) ?_)
    rw [List.getElem?_take_of_lt (Nat.lt_succ_self n), ← List.head?_drop, hl, List.head?_cons]

/-- `s` after `n` waiting edges: `n` entries of the ports are spent and `n` edges of LATENCY have passed. -/
def waited (n : Nat) (s : State) : State := { s with inputs := s.inputs.drop n, wait := s.wait - n }

/-- A command in flight waits as long as edges of LATENCY are left and no reset comes. -/
theorem run_waited {n : Nat} {s : State} (hb : s.hasBeenReset = true) (hc : s.control = .busy) (hn : n ≤ s.wait)
    (hr : ∀ q ∈ s.inputs.take n, q.rst = false) : run n s = .next (waited n s) := by
  induction n with
  | zero => rfl
  | succ n ih =>
    have before : run n s = .next (waited n s) :=
      ih (by omega) fun q hq => hr q (List.take_subset_take_left _ (Nat.le_succ n) hq)
    have left : (waited n s).wait = (s.wait - (n + 1)) + 1 := by simp only [waited]; omega
    rw [run_add before, run_one, step_wait (s := waited n s) (headD_rst_of_take hr) hb hc left]
    simp only [waited, afterSampling, List.tail_drop]

section
variable {s : State} {p : Ports} {later : List Ports}
  (hb : s.hasBeenReset = true) (hc : s.control = .idle) (hi : s.inputs = p :: later) (hp : p.rst = false)
  (hv : p.reqValid = true)
include hb hc hi hp hv

/-- The edges from the acceptance of the request of `p` on, up to the completing edge. -/
theorem run_accepted {k : Nat} (hk : k < s.config.latency p.req.op) (hr : ∀ q ∈ later.take k, q.rst = false) :
    run (1 + k) s = .next (waited k (accept p.req (afterSampling s))) := by
  have hs : sampledPorts s = p := by simp [sampledPorts, hi]
  have accepted : run 1 s = .next (accept p.req (afterSampling s)) := by
    rw [run_one, step_accept (by rw [hs]; exact hp) hb hc (by rw [hs]; exact hv), hs]
  have enough : k ≤ (accept p.req (afterSampling s)).wait := by
    simp only [accept_wait, afterSampling_config]; omega
  rw [run_add accepted]
  exact run_waited hb rfl enough (by simpa [hi] using hr)

/-- The edge LATENCY(op) edges after the acceptance is the completing edge of the accepted request. -/
theorem run_to_completion (hr : ∀ q ∈ later.take (s.config.latency p.req.op), q.rst = false) :
    ∃ w, run (1 + s.config.latency p.req.op) s = completeEdge w ∧ w.config = s.config ∧ w.captured = p.req := by
  obtain ⟨n, hn⟩ : ∃ n, s.config.latency p.req.op = n + 1 := ⟨_, rfl⟩
  rw [hn] at hr
  have before := run_accepted hb hc hi hp hv (k := n) (by omega)
    fun q hq => hr q (List.take_subset_take_left _ (Nat.le_succ n) hq)
  have done : (waited n (accept p.req (afterSampling s))).wait = 0 := by simp [waited, hn]
  refine ⟨afterSampling (waited n (accept p.req (afterSampling s))), ?_, rfl, rfl⟩
  rw [hn, ← Nat.add_assoc, run_add before, run_one]
  refine step_complete ?_ hb rfl done
  simpa [sampledPorts, waited, hi] using headD_rst_of_take hr

/-- The completing edge answers the outcome of the accepted request. -/
theorem run_completed (hr : ∀ q ∈ later.take (s.config.latency p.req.op), q.rst = false)
    {o : Except EncodeError ResultBus} (ho : requestOutcome s.config p.req = some o) :
    ∃ d w, run (1 + s.config.latency p.req.op) s = .next (endCommand (respond o d w)) ∧ w.config = s.config ∧
      w.captured = p.req := by
  obtain ⟨w, hw, hconf, hcap⟩ := run_to_completion hb hc hi hp hv hr
  obtain ⟨d, hd⟩ := completeEdge_of_outcome (s := w) (by rw [hconf, hcap]; exact ho)
  exact ⟨d, w, hw.trans hd, hconf, hcap⟩

end

end Sys2Proof.Machine
end

section
/-! SUPPORT. The invariant of the response registers (10_state.md R24, R25, R28), part by part. -/

namespace Sys2Proof.Machine

theorem legalResponse_completeEdge {s t : State} (h : completeEdge s = .next t) : legalResponse t := by
  obtain ⟨o, d, -, rfl⟩ := completeEdge_next_inv h
  exact respond_legal o d s

/-- What `answersCaptured` says rests on the configuration, the captured request and the response alone. -/
theorem answersCaptured_of_sameResponse {s t : State} (hc : t.config = s.config) (hr : t.captured = s.captured)
    (h : sameResponse s t) (ha : answersCaptured s) : answersCaptured t := by
  intro hd
  obtain ⟨u, hu, hs⟩ := ha (by rw [← h.1]; exact hd)
  obtain ⟨o, d, ho, rfl⟩ := completeEdge_next_inv hu
  obtain ⟨d', hd'⟩ := completeEdge_of_outcome (s := t) (by rw [hc, hr]; exact ho)
  have again : sameResponse (endCommand (respond o d s)) (endCommand (respond o d' t)) :=
    sameResponse_respond o d d' s t
  exact ⟨_, hd', h.symm.trans (hs.trans again)⟩

/-- Completing the captured command once more gives the response it has already given. -/
theorem answersCaptured_completeEdge {s t : State} (h : completeEdge s = .next t) : answersCaptured t := by
  obtain ⟨o, d, ho, rfl⟩ := completeEdge_next_inv h
  obtain ⟨d', hd'⟩ := completeEdge_of_outcome (s := endCommand (respond o d s)) (by simpa using ho)
  exact fun _ => ⟨_, hd', sameResponse_respond o d d' s _⟩

/-- While `done` is 0 the invariant claims only that the response is legal. -/
theorem responseInv_of_not_done {s : State} (hl : legalResponse s) (hd : s.done = false) : ResponseInv s :=
  fun _ => ⟨hl, fun _ => hd, fun h => absurd h (by simp [hd])⟩

theorem responseInv_completeEdge {s t : State} (h : completeEdge s = .next t) : ResponseInv t := by
  have idle : t.control = .idle := by obtain ⟨o, d, -, rfl⟩ := completeEdge_next_inv h; simp
  exact fun _ => ⟨legalResponse_completeEdge h, fun hb => absurd (idle.symm.trans hb) (by decide),
    answersCaptured_completeEdge h⟩

/-- Sampling the ports does not touch what the invariant speaks of. -/
theorem responseInv_afterSampling {s : State} (h : ResponseInv s) : ResponseInv (afterSampling s) := by
  intro hb
  obtain ⟨hl, hd, ha⟩ := h hb
  exact ⟨hl, hd, answersCaptured_of_sameResponse (s := s) rfl rfl ⟨rfl, rfl, rfl, rfl⟩ ha⟩

/-- Settles O41, by the cases of a step: reset, acceptance and waiting leave `done` 0 over a legal response, holding changes
nothing the invariant speaks of, and a completion answers the captured command. -/
theorem responseInvariantHolds : Obligations.ResponseInvariantHolds := by
  intro s t inv hstep
  rcases step_next_inv hstep with ⟨-, rfl⟩ | ⟨hb, -, -, rfl⟩ | rfl | ⟨hb, hc, n, -, rfl⟩ | ⟨-, -, h⟩
  · exact responseInv_of_not_done ⟨fun _ => rfl, fun _ => rfl⟩ rfl
  · obtain ⟨hl, -, -⟩ := inv hb
    exact responseInv_of_not_done hl rfl
  · exact responseInv_afterSampling inv
  · obtain ⟨hl, hd, -⟩ := inv hb
    exact responseInv_of_not_done hl (hd hc)
  · exact responseInv_completeEdge h

/-- Settles O42: at reset the response is 0 and `done` is 0; after power-up no reset edge has occurred. -/
theorem responseInvariantAtReset : Obligations.ResponseInvariantAtReset :=
  ⟨responseInv_of_not_done ⟨fun _ => rfl, fun _ => rfl⟩ rfl, fun _ _ _ hb => by cases hb⟩

end Sys2Proof.Machine
end

section
/-! SUPPORT. The datapath a command leaves (10_state.md R29, R30; assumption logs 9 to 12). -/

namespace Sys2Proof.Machine

/-- The datapath as the stages leave it, whether they raised an error or not. -/
def stageDatapath : Stage → Datapath
  | .ok d => d
  | .error (_, d) => d

theorem datapath_finish {r : Stage} {layout : Datapath → ResultBus} {s t : State} (h : finish r layout s = .next t) :
    t.datapath = stageDatapath r := by
  cases r <;> cases h <;> rfl

theorem datapath_finishValue {v : Except EncodeError Nat} {s t : State} (h : finishValue v s = .next t) :
    t.datapath = s.datapath := by
  cases v <;> cases h <;> rfl

theorem datapath_finishMap {d : Datapath} {s t : State} (h : finishMap d s = .next t) :
    { t.datapath with sym := 0, i := 0 } = { d with sym := 0, i := 0 } := by
  unfold finishMap at h
  split at h
  · rw [datapath_finish h]; rfl
  · cases h

theorem datapath_execConv {msg : MsgBus} {s t : State} (h : execConv msg s = .next t) :
    t.datapath = convStage msg s.datapath := by
  rw [execConv] at h
  exact datapath_finish h

theorem datapath_execInterleave {bits : BitSeq} {s t : State} (h : execInterleave bits s = .next t) :
    t.datapath = interleaveStage { s.datapath with coded := bits } := by
  rw [execInterleave] at h
  exact datapath_finish h

theorem callStage_frame (n : Byte) (call : CallBus) (d : Datapath) :
    { stageDatapath (callStage n call d) with N := 0 } = { d with N := 0 } := by
  rcases callStage_cases n call d with ⟨v, -, h⟩ | ⟨e, -, h⟩ <;> rw [h] <;> rfl

theorem locStage_frame (loc : LocBus) (d : Datapath) :
    { stageDatapath (locStage loc d) with m1 := 0 } = { d with m1 := 0 } := by
  rcases locStage_cases loc d with ⟨v, -, -, h⟩ | ⟨e, -, h⟩ <;> rw [h] <;> rfl

theorem locPowerStage_frame (loc : LocBus) (p : Byte) (d : Datapath) :
    { stageDatapath (locPowerStage loc p d) with m1 := 0, m := 0 } = { d with m1 := 0, m := 0 } := by
  rcases locPowerStage_cases loc p d with ⟨v, -, -, h⟩ | ⟨e, -, h⟩ <;> rw [h] <;> rfl

/-- The packer writes N where the callsign is accepted, m1, m and msg where the locator is too, and nothing else. -/
theorem packStage_frame (n : Byte) (call : CallBus) (loc : LocBus) (p : Byte) (d : Datapath) :
    { stageDatapath (packStage n call loc p d) with N := 0, m1 := 0, m := 0, msg := 0 } =
      { d with N := 0, m1 := 0, m := 0, msg := 0 } := by
  unfold packStage
  rcases callStage_cases n call d with ⟨N, -, h⟩ | ⟨e, -, h⟩ <;> rw [h]
  · rcases locPowerStage_cases loc p { d with N := BitVec.ofNat 28 N } with ⟨m1, -, -, g⟩ | ⟨e, -, g⟩
    · simp only [g]; rfl
    · simp only [g]; rfl
  · rfl

/-- Settles O29, command by command, each by the frame of its stages. -/
theorem commandDatapathFrame : Obligations.CommandDatapathFrame := by
  intro s t n ch p call loc msg bits
  refine ⟨datapath_finishValue, datapath_finishValue, fun h => ?_, fun h => ?_, fun h => ?_, fun h => ?_, fun h => ?_,
    fun h => ?_, fun h => ?_, fun h => ?_⟩
  · rw [datapath_finish h]; exact callStage_frame n call s.datapath
  · rw [datapath_finish h]; exact locStage_frame loc s.datapath
  · rw [datapath_finish h]; exact locPowerStage_frame loc p s.datapath
  · rw [datapath_finish h]; exact packStage_frame n call loc p s.datapath
  · rw [datapath_finish h]; exact packStage_frame n call loc p s.datapath
  · rw [datapath_execConv h]; rfl
  · rw [datapath_execInterleave h]; rfl
  · exact congrArg (fun d : Datapath => { d with inter := 0 }) (datapath_finishMap h)

end Sys2Proof.Machine
end

section
/-! SUPPORT. The remaining statements of 10_state.md about one command and one edge. -/

namespace Sys2Proof.Machine

/-- Settles O28: the answer of a command is `respond` of its outcome, which is never ILLEGAL_OP. -/
theorem commandChangesResponseOnly : Obligations.CommandChangesResponseOnly := by
  intro i s t h
  obtain ⟨o, d, ho, rfl⟩ := exec_next_inv h
  have legalStatus : o ≠ .error .illegalOp := fun he => commandOutcome_ne_illegalOp s.config i (he ▸ ho)
  refine ⟨?_, respond_legal o d s, respond_status_le legalStatus d s⟩
  rw [respond_datapath]
  exact respond_eq_answered o d s

/-- Settles O30: the outcome of a command is computed from its operands and the configuration. -/
theorem outcomeIgnoresHistory : Obligations.OutcomeIgnoresHistory := by
  intro i s s' hc
  refine ⟨fun t h => ?_, fun r h => ?_⟩
  · obtain ⟨o, d, ho, rfl⟩ := exec_next_inv h
    obtain ⟨d', hd'⟩ := exec_of_outcome (s := s') (hc ▸ ho)
    exact ⟨_, hd', sameResponse_respond o d d' s s'⟩
  · obtain ⟨ho, rfl⟩ := exec_refused_inv h
    exact exec_of_no_outcome (hc ▸ ho)

/-- Settles O44: `run_accepted` gives the edges before the completing one, and `run_completed` the completing edge for each
outcome of the accepted request. -/
theorem commandCompletesAfterLatency : Obligations.CommandCompletesAfterLatency := by
  intro s p later hb hc hi hp hv hr
  refine ⟨fun k hk => ?_, fun i hd => ⟨fun u hu => ?_, fun r hu => ?_⟩, fun hop => ?_⟩
  · refine ⟨_, run_accepted hb hc hi hp hv hk fun q hq => hr q ?_, rfl⟩
    exact List.take_subset_take_left _ (Nat.le_of_lt hk) hq
  · obtain ⟨o, d, ho, rfl⟩ := exec_next_inv hu
    obtain ⟨d', w, hw, hconf, hcap⟩ :=
      run_completed hb hc hi hp hv hr (requestOutcome_of_decode hd s.config ▸ ho)
    obtain ⟨-, hs, he, hres⟩ := sameResponse_respond o d d' s w
    exact ⟨_, hw, by simp, by simp, hs, he, hres, by simpa using hcap, by simpa using hconf⟩
  · obtain ⟨ho, rfl⟩ := exec_refused_inv hu
    obtain ⟨w, hw, hconf, hcap⟩ := run_to_completion hb hc hi hp hv hr
    refine hw.trans (completeEdge_of_no_outcome ?_)
    rw [hconf, hcap, requestOutcome_of_decode hd]
    exact ho
  · obtain ⟨d, w, hw, hconf, hcap⟩ := run_completed hb hc hi hp hv hr (requestOutcome_of_reserved hop s.config)
    exact ⟨_, hw, rfl, rfl, rfl, rfl, rfl, hcap, hconf⟩

/-- Settles O52, by the cases of a step: acceptance, holding and waiting are the edges left, and each keeps the response. -/
theorem responseWrittenOnlyByCompletionAndReset : Obligations.ResponseWrittenOnlyByCompletionAndReset := by
  intro s t hr hn h
  rcases step_next_inv h with ⟨hr', -⟩ | ⟨-, -, -, rfl⟩ | rfl | ⟨-, -, n, -, rfl⟩ | ⟨hc, hw, -⟩
  · rw [hr] at hr'; cases hr'
  · exact ⟨rfl, rfl, rfl⟩
  · exact ⟨rfl, rfl, rfl⟩
  · exact ⟨rfl, rfl, rfl⟩
  · exact absurd ⟨hc, hw⟩ hn

/-- Settles O32: the completing edge runs `exec` on the decoded request and then ends the command. -/
theorem stepRunsCapturedCommand : Obligations.StepRunsCapturedCommand := by
  intro s i hr hb hc hw hd
  have completes : step s = onNext endCommand (exec i (afterSampling s)) := by
    rw [step_complete hr hb hc hw, completeEdge, afterSampling_captured, hd]
  refine ⟨fun t h => ⟨unspecifiedDatapath t.freeCount, ?_⟩, fun r h => ?_⟩
  · rw [completes, show exec i (afterSampling s) = .next t from h]; rfl
  · rw [completes, show exec i (afterSampling s) = .refused r from h]; rfl

/-- Settles O34: `step_accept` is the accepting edge, and holding, waiting and completing keep the captured request. -/
theorem acceptanceCapturesPorts : Obligations.AcceptanceCapturesPorts := by
  intro s hr hb
  refine ⟨fun hc hv => step_accept hr hb hc hv, fun t hn h => ?_⟩
  rcases step_next_inv h with ⟨hr', -⟩ | ⟨-, hc, hv, -⟩ | rfl | ⟨-, -, n, -, rfl⟩ | ⟨-, -, e⟩
  · rw [hr] at hr'; cases hr'
  · exact absurd ⟨hc, hv⟩ hn
  · rfl
  · rfl
  · obtain ⟨o, d, -, rfl⟩ := completeEdge_next_inv e
    simp

/-- Settles O36: the values written in `State.reset`. -/
theorem resetStateHasSpecValues : Obligations.ResetStateHasSpecValues := ⟨rfl, rfl, rfl, rfl, rfl⟩

end Sys2Proof.Machine
end

section
/-! SUPPORT. A command that completes with status OK, and the packed message as one number (20_memory.md R55,
41_message_packer.md R132, R135). -/

namespace Sys2Proof.Machine

/-- No error has the status OK (10_state.md R26). -/
theorem statusOf_ne_ok (e : EncodeError) : statusOf e ≠ statusOk := by
  cases e <;> simp [statusOf, statusOk]

/-- A command that completes with status OK had a value as its outcome, and its result is that value. -/
theorem exec_ok_inv {i : Instr} {s t : State} (h : exec i s = .next t) (h0 : t.status = 0#2) :
    commandOutcome s.config i = some (.ok t.result) := by
  obtain ⟨o, d, ho, rfl⟩ := exec_next_inv h
  cases o with
  | ok v => exact ho
  | error e => exact absurd h0 (statusOf_ne_ok e)

/-- A command whose outcome is a value completes with status OK and that result (60_exceptions.md R236). -/
theorem exec_of_ok_outcome {i : Instr} {s : State} {v : ResultBus} (h : commandOutcome s.config i = some (.ok v)) :
    ∃ d, exec i s = .next (Spec.answered s d 0 0 v) :=
  exec_of_outcome h

/-- A mapped `Except` answers a value exactly when the unmapped one does. -/
theorem map_ok_iff {ε α β : Type} {x : Except ε α} {f : α → β} {b : β} :
    x.map f = .ok b ↔ ∃ a, x = .ok a ∧ f a = b := by
  cases x <;> simp [Except.map]

/-- ENC_CALL with status OK: the callsign is accepted, and the result is the call integer. -/
theorem exec_encCall_ok_inv {n : Byte} {call : CallBus} {s t : State} (h : exec (.encCall n call) s = .next t)
    (h0 : t.status = 0#2) : callInteger n call = .ok t.result.toNat := by
  obtain ⟨N, hN, hv⟩ := map_ok_iff.1 (Option.some.inj (exec_ok_inv h h0))
  have := callInteger_le hN
  rw [hN, ← hv, BitVec.toNat_ofNat, Nat.mod_eq_of_lt (by omega)]

/-- ENC_M with status OK: the locator is accepted, and the result is the integer m. -/
theorem exec_encM_ok_inv {loc : LocBus} {p : Byte} {s t : State} (h : exec (.encM loc p) s = .next t)
    (h0 : t.status = 0#2) : ∃ m1, locatorIndex loc = .ok m1 ∧ t.result.toNat = powerInteger m1 p := by
  obtain ⟨m1, hm, hv⟩ := map_ok_iff.1 (Option.some.inj (exec_ok_inv h h0))
  have := powerInteger_le (locatorIndex_le hm) p
  exact ⟨m1, hm, by rw [← hv, BitVec.toNat_ofNat, Nat.mod_eq_of_lt (by omega)]⟩

/-- MESSAGE of an accepted callsign and locator answers the packed message of N and m (41_message_packer.md R133). -/
theorem exec_message_of_ok {n : Byte} {call : CallBus} {loc : LocBus} {N m1 : Nat} (hN : callInteger n call = .ok N)
    (hm : locatorIndex loc = .ok m1) (p : Byte) (s : State) :
    ∃ d, exec (.message n call loc p) s = .next (Spec.answered s d 0 0
      ((packMessage (BitVec.ofNat 28 N) (BitVec.ofNat 22 (powerInteger m1 p))).setWidth 324)) :=
  exec_of_ok_outcome (by simp only [commandOutcome, packOutcome, hN, hm, Except.map])

/-- The bytes of the packed message as numbers (41_message_packer.md R132). -/
theorem toNat_byteAt_packMessage (N : BitVec 28) (m : BitVec 22) {k : Nat} (hk : k < 7) :
    (byteAt (packMessage N m) k).toNat = Spec.packedByte N.toNat m.toNat k := by
  obtain ⟨b0, b1, b2, b3, b4, b5, b6⟩ := byteAt_packMessage N m
  have joined {a b : Nat} (x : BitVec a) (y : BitVec b) : (x ++ y).toNat = x.toNat * 2 ^ b + y.toNat := by
    rw [BitVec.toNat_append, ← Nat.shiftLeft_add_eq_or_of_lt y.isLt, Nat.shiftLeft_eq]
  have slice {w : Nat} (x : BitVec w) (i l : Nat) : (x.extractLsb' i l).toNat = x.toNat / 2 ^ i % 2 ^ l := by
    rw [BitVec.extractLsb'_toNat, Nat.shiftRight_eq_div_pow]
  match k, hk with
  | 0, _ => rw [b0, slice]; rfl
  | 1, _ => rw [b1, slice]; rfl
  | 2, _ => rw [b2, slice]; rfl
  | 3, _ => rw [b3, joined, slice, slice, pow_zero, Nat.div_one]; rfl
  | 4, _ => rw [b4, slice]; rfl
  | 5, _ => rw [b5, slice]; rfl
  | 6, _ => rw [b6, joined, slice, pow_zero, Nat.div_one]; rfl

/-- The bytes of MESSAGE's result for an N and an m that fit their registers (30_encoding.md R76, 41_message_packer.md R132). -/
theorem toNat_byteAt_messageResult {N m k : Nat} (hN : N < 2 ^ 28) (hm : m < 2 ^ 22) (hk : k < 7) :
    (byteAt ((packMessage (BitVec.ofNat 28 N) (BitVec.ofNat 22 m)).setWidth 324) k).toNat = Spec.packedByte N m k := by
  rw [byteAt_setWidth _ (by omega), toNat_byteAt_packMessage _ _ hk, BitVec.toNat_ofNat, BitVec.toNat_ofNat,
    Nat.mod_eq_of_lt hN, Nat.mod_eq_of_lt hm]

/-- The bytes of R132, most significant first, are N, m and six zero bits: the two ways of writing the message in
41_message_packer.md R132 and R135 agree. -/
theorem packedByte_bigEndian {N m : Nat} (hN : N < 2 ^ 28) (hm : m < 2 ^ 22) :
    Spec.packedByte N m 0 * 256 ^ 6 + Spec.packedByte N m 1 * 256 ^ 5 + Spec.packedByte N m 2 * 256 ^ 4 +
      Spec.packedByte N m 3 * 256 ^ 3 + Spec.packedByte N m 4 * 256 ^ 2 + Spec.packedByte N m 5 * 256 +
      Spec.packedByte N m 6 = N * 2 ^ 28 + m * 2 ^ 6 := by
  simp only [Spec.packedByte, List.getD_cons_zero, List.getD_cons_succ]
  omega

/-- Settles O11: the N and m of ENC_CALL and ENC_M are those that MESSAGE packs, and its bytes are those of R132. -/
theorem messageIsBigEndian : Obligations.MessageIsBigEndian := by
  intro s n call loc p t1 t2 h1 h2 ok1 ok2
  have hN := exec_encCall_ok_inv h1 ok1
  obtain ⟨m1, hm1, r2⟩ := exec_encM_ok_inv h2 ok2
  have boundN : t1.result.toNat < 2 ^ 28 := Nat.lt_of_le_of_lt (callInteger_le hN) (by decide)
  have boundM : powerInteger m1 p < 2 ^ 22 :=
    Nat.lt_of_le_of_lt (powerInteger_le (locatorIndex_le hm1) p) (by decide)
  obtain ⟨d, hd⟩ := exec_message_of_ok hN hm1 p s
  have bytes {k : Nat} (hk : k < 7) := toNat_byteAt_messageResult boundN boundM hk
  rw [r2]
  refine ⟨_, d, hd, ?_, boundN, boundM, ?_⟩
  · simp (disch := decide) only [bytes]
    exact packedByte_bigEndian boundN boundM
  · rw [bytes (by decide)]
    exact Nat.mul_mod_left _ 64

end Sys2Proof.Machine
end

section
/-! SUPPORT. No edge writes the configuration (20_memory.md R52, R63, 70_reset_and_hazards.md R263). -/

namespace Sys2Proof.Machine

/-- Settles O43, by the cases of a step: no update of the state writes the configuration. -/
theorem configurationNeverChanges : Obligations.ConfigurationNeverChanges := by
  intro s t h
  rcases step_next_inv h with ⟨-, rfl⟩ | ⟨-, -, -, rfl⟩ | rfl | ⟨-, -, n, -, rfl⟩ | ⟨-, -, e⟩
  · rw [resetEdge_config, afterSampling_config]
  · rw [accept_config, afterSampling_config]
  · exact afterSampling_config s
  · exact afterSampling_config s
  · obtain ⟨o, d, -, rfl⟩ := completeEdge_next_inv e
    rw [endCommand_config, respond_config, afterSampling_config]

end Sys2Proof.Machine
end

section
/-! SUPPORT. What the decoder reads of a request (30_encoding.md R71, R75, R79). -/

namespace Sys2Proof

/-- A port as its command sees it: its value where the command reads the port, and 0 where it does not. -/
def portPart {w : Nat} (reads : Bool) (v : BitVec w) : BitVec w := if reads then v else 0

/-- A port on which 0 stands where it is not read is seen as it is. -/
theorem portPart_eq_self {w : Nat} {reads : Bool} {v : BitVec w} (h : (reads || v == 0) = true) :
    portPart reads v = v := by
  cases reads with
  | true => rfl
  | false => exact (beq_iff_eq.1 h).symm

/-- Two values of a port that agree where it is read are seen alike. -/
theorem portPart_congr {w : Nat} {reads : Bool} {v v' : BitVec w} (h : reads = true → v' = v) :
    portPart reads v' = portPart reads v := by
  cases reads with
  | true => exact h rfl
  | false => rfl

/-- A request as its command sees it: the operands of the column "operands read" of 30_encoding.md R71, 0 on every other
port. -/
def Request.readPart (r : Request) : Request :=
  { op := r.op
    callLen := portPart (readsCall r.op) r.callLen
    call := portPart (readsCall r.op) r.call
    loc := portPart (readsLoc r.op) r.loc
    power := portPart (readsPower r.op) r.power
    char := portPart (readsChar r.op) r.char
    msg := portPart (readsMsg r.op) r.msg
    bits := portPart (readsBits r.op) r.bits }

@[simp] theorem Request.readPart_op (r : Request) : r.readPart.op = r.op := rfl

/-- EVERYTHING THE DECODER CAN DO, code by code. Codes 0 to 10 give the instruction whose port tuple is what the command sees
of the request; the codes above them are rejected by name. -/
theorem decode_cases (r : Request) :
    (r.op.toNat ≤ 10 ∧ ∃ i, decode r = .ok i ∧ encode i = r.readPart) ∨
    (11 ≤ r.op.toNat ∧ decode r = .error (.reservedOp r.op)) := by
  obtain ⟨⟨⟨code, hcode⟩⟩, callLen, call, loc, power, char, msg, bits⟩ := r
  match code, hcode with
  | 0, _ | 1, _ | 2, _ | 3, _ | 4, _ | 5, _ | 6, _ | 7, _ | 8, _ | 9, _ | 10, _ =>
    exact .inl ⟨Nat.le_of_ble_eq_true rfl, _, rfl, rfl⟩
  | code + 11, _ => exact .inr ⟨Nat.le_add_left 11 code, rfl⟩

/-- The port tuple of a decoded command is what the command sees of the request. -/
theorem encode_of_decode {r : Request} {i : Instr} (h : decode r = .ok i) : encode i = r.readPart := by
  rcases decode_cases r with ⟨-, j, hj, he⟩ | ⟨-, hj⟩
  · rw [hj] at h; cases h; exact he
  · rw [hj] at h; cases h

/-- The decoder reads every port tuple back; for each constructor that is the lemma of `Laws.ReadsBack`. -/
theorem decode_encode (i : Instr) : decode (encode i) = .ok i := by
  cases i with
  | encode n c l p => exact Laws.ReadsBack.encode n c l p
  | message n c l p => exact Laws.ReadsBack.message n c l p
  | messageStr n c l p => exact Laws.ReadsBack.messageStr n c l p
  | encNumStr b => exact Laws.ReadsBack.encNumStr b
  | encLocChar b => exact Laws.ReadsBack.encLocChar b
  | encCall n c => exact Laws.ReadsBack.encCall n c
  | encM1 l => exact Laws.ReadsBack.encM1 l
  | encM l p => exact Laws.ReadsBack.encM l p
  | conv m => exact Laws.ReadsBack.conv m
  | interleave b => exact Laws.ReadsBack.interleave b
  | map b => exact Laws.ReadsBack.map b

/-- The decoder looks at nothing but what the command sees of the request (30_encoding.md R75). -/
theorem decode_readPart (r : Request) : decode r.readPart = decode r := by
  rcases decode_cases r with ⟨-, i, hi, he⟩ | ⟨hop, hr⟩
  · rw [← he, decode_encode, hi]
  · rcases decode_cases r.readPart with ⟨hop', -⟩ | ⟨-, hr'⟩
    · rw [Request.readPart_op] at hop'; omega
    · rw [hr', hr, Request.readPart_op]

/-- A well-formed request is seen as it is (30_encoding.md R79). -/
theorem Request.readPart_of_wellFormed {r : Request} (h : r.wellFormed = true) : r.readPart = r := by
  simp only [Request.wellFormed, Bool.and_eq_true] at h
  obtain ⟨⟨⟨⟨⟨⟨⟨-, hlen⟩, hcall⟩, hloc⟩, hpower⟩, hchar⟩, hmsg⟩, hbits⟩ := h
  simp only [Request.readPart, portPart_eq_self hlen, portPart_eq_self hcall, portPart_eq_self hloc,
    portPart_eq_self hpower, portPart_eq_self hchar, portPart_eq_self hmsg, portPart_eq_self hbits]

/-! The columns "operands read" of 30_encoding.md R71, as the statements write them. -/

theorem readsCall_iff (op : BitVec 4) : readsCall op = true ↔ op.toNat ∈ [0, 1, 2, 5] := List.contains_iff_mem
theorem readsLoc_iff (op : BitVec 4) : readsLoc op = true ↔ op.toNat ∈ [0, 1, 2, 6, 7] := List.contains_iff_mem
theorem readsPower_iff (op : BitVec 4) : readsPower op = true ↔ op.toNat ∈ [0, 1, 2, 7] := List.contains_iff_mem
theorem readsChar_iff (op : BitVec 4) : readsChar op = true ↔ op.toNat ∈ [3, 4] := List.contains_iff_mem
theorem readsMsg_iff (op : BitVec 4) : readsMsg op = true ↔ op.toNat = 8 := beq_iff_eq
theorem readsBits_iff (op : BitVec 4) : readsBits op = true ↔ op.toNat ∈ [9, 10] := List.contains_iff_mem

/-- Requests that agree on the ports their command reads are seen alike. -/
theorem Request.readPart_congr {r r' : Request} (h : Spec.agreeOnRead r r') : r'.readPart = r.readPart := by
  obtain ⟨hop, hcall, hloc, hpower, hchar, hmsg, hbits⟩ := h
  simp only [← readsCall_iff, ← readsLoc_iff, ← readsPower_iff, ← readsChar_iff, ← readsMsg_iff, ← readsBits_iff]
    at hcall hloc hpower hchar hmsg hbits
  simp only [Request.readPart, hop, Request.mk.injEq, true_and]
  exact ⟨portPart_congr fun h => (hcall h).1, portPart_congr fun h => (hcall h).2, portPart_congr hloc,
    portPart_congr hpower, portPart_congr hchar, portPart_congr hmsg, portPart_congr hbits⟩

/-- Requests that agree on the ports their command reads decode alike. -/
theorem decode_congr {r r' : Request} (h : Spec.agreeOnRead r r') : decode r' = decode r := by
  rw [← decode_readPart r', Request.readPart_congr h, decode_readPart]

end Sys2Proof
end

section
/-! SUPPORT. The statements of 30_encoding.md, and the operands a host presents (30_encoding.md R73, R74,
70_reset_and_hazards.md R272). -/

namespace Sys2Proof.Machine

/-- Settles O46: a word holds its request, and the decoder reads a command's port tuple back. -/
theorem decodeReadsEncodedWord : Obligations.DecodeReadsEncodedWord := by
  intro i
  rw [decodeWord, encodeWord, Request.ofWord_toWord, decode_encode]

/-- Settles O47: the decoded command's port tuple is what it sees of the request, which is all of a well-formed one. -/
theorem encodeGivesDecodedWord : Obligations.EncodeGivesDecodedWord := by
  intro w i hw h
  rw [encodeWord, encode_of_decode h, Request.readPart_of_wellFormed hw, Request.toWord_ofWord]

/-- Settles O48, by the two cases of the decoder. -/
theorem decodingIsTotal : Obligations.DecodingIsTotal := by
  intro r
  rcases decode_cases r with ⟨hop, i, hi, he⟩ | ⟨hop, hr⟩
  · exact ⟨fun _ => ⟨i, hi, by rw [he, Request.readPart_op]⟩, fun h => by omega⟩
  · exact ⟨fun h => by omega, fun _ => hr⟩

/-- Settles O31: the outcome of a request is that of what it decodes to, and the two requests decode alike. -/
theorem unreadPortsHaveNoEffect : Obligations.UnreadPortsHaveNoEffect := by
  intro s t r r' hr h
  obtain ⟨o, d, ho, rfl⟩ := completeEdge_next_inv h
  have ho' : requestOutcome s.config r' = some o := by
    rw [requestOutcome, decode_congr hr]; exact ho
  obtain ⟨d', e⟩ := completeEdge_of_outcome (s := { s with captured := r' }) ho'
  exact ⟨_, e, sameResponse_respond o d d' _ _⟩

/-- Settles O49: each word is decoded. -/
theorem writtenWordsDecode : Obligations.WrittenWordsDecode := by
  unfold Obligations.WrittenWordsDecode
  decide +kernel

/-- Settles O50: the saturated length fits its byte, and lane k of the bus is character k. -/
theorem callOperandPresentsString : Obligations.CallOperandPresentsString := by
  intro callsign
  simp only [callOperand]
  refine ⟨?_, fun k hk => byteAt_bytesOf _ (by omega)⟩
  rw [BitVec.toNat_ofNat]
  omega

/-- A code that reads the locator is refused for a short one. -/
theorem issue_of_short {locator : List Byte} {r : Request} (hl : readsLoc r.op = true) (hs : locator.length < 4)
    (callsign : List Byte) : issue callsign locator r = .error .locatorTooShort := by
  simp only [issue, hl, hs, decide_true, Bool.and_self, if_true]

/-- A code that does not read the locator is issued or refused by its callsign alone. -/
theorem issue_of_not_readsLoc {r : Request} (hl : readsLoc r.op = false) (callsign locator : List Byte) :
    issue callsign locator r =
      if readsCall r.op && !callPresented callsign r then .error .operandMispresented else .ok r := by
  simp only [issue, hl, Bool.false_and, Bool.false_eq_true, if_false]

/-- Settles O51, by whether the code reads the locator. -/
theorem shortLocatorIsRefused : Obligations.ShortLocatorIsRefused := by
  intro callsign locator r
  refine ⟨fun hs hl => issue_of_short ((readsLoc_iff r.op).2 hl) hs callsign, fun hl => ?_, fun hop => ?_⟩
  · have noLoc : readsLoc r.op = false := Bool.eq_false_iff.2 fun h => hl ((readsLoc_iff r.op).1 h)
    refine ⟨?_, fun locator' => by simp only [issue_of_not_readsLoc noLoc]⟩
    rw [issue_of_not_readsLoc noLoc]
    split <;> intro h <;> cases h
  · have locCodes : [0, 1, 2, 6, 7] ⊆ [0, 1, 2, 5, 6, 7] := by decide
    have callCodes : [0, 1, 2, 5] ⊆ [0, 1, 2, 5, 6, 7] := by decide
    have noLoc : readsLoc r.op = false := Bool.eq_false_iff.2 fun h => hop (locCodes ((readsLoc_iff r.op).1 h))
    have noCall : readsCall r.op = false := Bool.eq_false_iff.2 fun h => hop (callCodes ((readsCall_iff r.op).1 h))
    rw [issue_of_not_readsLoc noLoc, noCall, Bool.false_and, if_neg Bool.false_ne_true]

end Sys2Proof.Machine
end

section
/-! SUPPORT. The statements of 40_value_encoder.md: the tables as relations, and the completion both commands share. -/

namespace Sys2Proof.Machine

/-- `num` answers the value that `LUT_NUM` lists for the byte (40_value_encoder.md R101, R103). -/
theorem num_ok_iff {b : Byte} {v : Nat} : num b = .ok v ↔ Spec.alnum b v := by
  unfold Spec.alnum
  rcases num_cases b with ⟨_, _, e⟩ | ⟨_, _, e⟩ | ⟨_, e⟩ | ⟨_, _, _, e⟩
  · rw [e, Except.ok.injEq]; omega
  · rw [e, Except.ok.injEq]; omega
  · rw [e, Except.ok.injEq]; omega
  · rw [e]; simp only [reduceCtorEq, false_iff]; omega

/-- `locChar` answers the value that `LUT_LOC` lists for the byte (40_value_encoder.md R102, R103). -/
theorem locChar_ok_iff {b : Byte} {v : Nat} : locChar b = .ok v ↔ Spec.locLetter b v := by
  unfold Spec.locLetter
  rcases locChar_cases b with ⟨_, _, e⟩ | ⟨_, e⟩
  · rw [e, Except.ok.injEq]; omega
  · rw [e]; simp only [reduceCtorEq, false_iff]; omega

/-- The completion of a command that looks up the byte `b`: the value that `valid` gives it, or INVALID_CHAR with `b`; the
datapath is kept (60_exceptions.md R230, R236). -/
theorem finishValue_of_lookup {x : Except EncodeError Nat} {b : Byte} {valid : Nat → Prop}
    (hok : ∀ v, x = .ok v ↔ valid v) (herr : ∀ e, x = .error e → e = .invalidChar b) (s : State) :
    (∀ v, valid v → finishValue x s = .next (Spec.answered s s.datapath 0 0 (BitVec.ofNat 324 v))) ∧
    ((¬ ∃ v, valid v) → finishValue x s = .next (Spec.answered s s.datapath 1 b 0)) := by
  refine ⟨fun v hv => ?_, fun hnone => ?_⟩
  · rw [(hok v).2 hv]; rfl
  · cases x with
    | ok v => exact absurd ⟨v, (hok v).1 rfl⟩ hnone
    | error e => rw [herr e rfl]; rfl

/-- Settles O1: ENC_NUM_STR completes with the lookup of `num`. -/
theorem encNumStrFollowsItsRule : Obligations.EncNumStrFollowsItsRule := by
  refine ⟨fun r hop => ?_, fun s b => ?_⟩
  · rw [decode, hop]; rfl
  · exact finishValue_of_lookup (fun _ => num_ok_iff) (fun _ => num_error) s

/-- Settles O2: ENC_LOC_CHAR completes with the lookup of `locChar`. -/
theorem encLocCharFollowsItsRule : Obligations.EncLocCharFollowsItsRule := by
  refine ⟨fun r hop => ?_, fun s b => ?_⟩
  · rw [decode, hop]; rfl
  · exact finishValue_of_lookup (fun _ => locChar_ok_iff) (fun _ => locChar_error) s

end Sys2Proof.Machine
end

section
/-! SUPPORT. The operands of 41_message_packer.md against their classes: the values of accepted operands (R124, R128), and
the first failure of the others in the order in which positions are checked (R122, R123, R127). -/

namespace Sys2Proof.Machine

/-- The first of `n + 1` places is place 0, or place 0 is passed and the first lies among the `n` after it. -/
theorem exists_first_succ {n : Nat} {P Q : Nat → Prop} :
    (∃ k, k < n + 1 ∧ (∀ j, j < k → P j) ∧ Q k) ↔
      Q 0 ∨ P 0 ∧ ∃ k, k < n ∧ (∀ j, j < k → P (j + 1)) ∧ Q (k + 1) := by
  simp only [Nat.exists_lt_succ_left, Nat.forall_lt_succ_left, Nat.not_lt_zero, false_imp_iff, implies_true, true_and]
  refine or_congr_right ⟨?_, ?_⟩
  · rintro ⟨k, hk, ⟨h0, h⟩, hq⟩; exact ⟨h0, k, hk, h, hq⟩
  · rintro ⟨h0, k, hk, h, hq⟩; exact ⟨k, hk, ⟨h0, h⟩, hq⟩

/-- A lookup that can only fail with `InvalidChar(b)` does so where no value is valid. -/
theorem eq_invalidChar_of_not_valid {x : Except EncodeError Nat} {b : Byte} {valid : Nat → Prop}
    (hok : ∀ v, x = .ok v ↔ valid v) (herr : ∀ e, x = .error e → e = .invalidChar b) (hnone : ¬ ∃ v, valid v) :
    x = .error (.invalidChar b) := by
  cases x with
  | ok v => exact absurd ⟨v, (hok v).1 rfl⟩ hnone
  | error e => rw [herr e rfl]

/-- `callchar(k, b)` answers the value of the class of position `k` (41_message_packer.md R120, R121). -/
theorem callChar_ok_iff_callClass {k : Nat} {b : Byte} {v : Nat} : callChar k b = .ok v ↔ Spec.callClass k b v := by
  rw [callChar_ok_iff, num_ok_iff, Spec.callClass]

theorem callInteger_of_goodCall {n : Byte} {call : CallBus} {c : Nat → Nat} (h : Spec.goodCall n call c) :
    callInteger n call = .ok (Spec.callInt c) := by
  obtain ⟨hn, hclass⟩ := h
  have value {k : Nat} (hk : k < 6) : callChar k (byteAt call k) = .ok (c k) := callChar_ok_iff_callClass.2 (hclass k hk)
  exact callInteger_ok_iff.2 ⟨hn, c 0, c 1, c 2, c 3, c 4, c 5, value (by decide), value (by decide), value (by decide),
    value (by decide), value (by decide), value (by decide), rfl⟩

theorem callInteger_of_wrong_length {n : Byte} (h : n ≠ 6#8) (call : CallBus) :
    callInteger n call = .error .invalidCallsign := if_pos h

/-- A callsign of length 6 fails with the error of its first failing position (41_message_packer.md R123). -/
theorem callInteger_error_iff {call : CallBus} {e : EncodeError} :
    callInteger 6#8 call = .error e ↔ ∃ k, k < 6 ∧ (∀ j, j < k → ∃ v, callChar j (byteAt call j) = .ok v) ∧
      callChar k (byteAt call k) = .error e := by
  rw [callInteger, if_neg (by decide)]
  simp only [exists_first_succ]
  simp [bind_error_iff]

/-- A failing callsign raises the error whose response R125 of 41_message_packer.md gives. -/
theorem callInteger_of_callFails {n : Byte} {call : CallBus} {st : BitVec 2} {e : Byte}
    (h : Spec.callFails n call st e) :
    ∃ err, callInteger n call = .error err ∧ statusOf err = st ∧ errByteOf err = e := by
  rcases h with ⟨hn, rfl, rfl⟩ | ⟨rfl, k, hk, hbefore, hfail, rfl, rfl⟩
  · exact ⟨.invalidCallsign, callInteger_of_wrong_length hn call, rfl, rfl⟩
  · simp only [← callChar_ok_iff_callClass] at hbefore
    have failing : callChar k (byteAt call k) = .error (.invalidChar (byteAt call k)) :=
      eq_invalidChar_of_not_valid (fun _ => callChar_ok_iff_callClass) (fun _ => callChar_error) hfail
    exact ⟨_, callInteger_error_iff.2 ⟨k, hk, hbefore, failing⟩, rfl, rfl⟩

/-- The lookup of locator position `k`: a letter at positions 0 and 1, a digit at 2 and 3 (41_message_packer.md R127). -/
def locPosition (k : Nat) (b : Byte) : Except EncodeError Nat := if k < 2 then locChar b else locDigit b

theorem locPosition_ok_iff_locClass {k : Nat} {b : Byte} {v : Nat} :
    locPosition k b = .ok v ↔ Spec.locClass k b v := by
  unfold locPosition Spec.locClass
  split
  · exact locChar_ok_iff
  · rw [locDigit_ok_iff, num_ok_iff]

theorem locPosition_error {k : Nat} {b : Byte} {e : EncodeError} (h : locPosition k b = .error e) :
    e = .invalidChar b := by
  unfold locPosition at h
  split at h
  · exact locChar_error h
  · exact locDigit_error h

theorem locatorIndex_of_goodLoc {loc : LocBus} {l : Nat → Nat} (h : Spec.goodLoc loc l) :
    locatorIndex loc = .ok (Spec.locIndex l) := by
  have value {k : Nat} (hk : k < 4) : locPosition k (byteAt loc k) = .ok (l k) := locPosition_ok_iff_locClass.2 (h k hk)
  exact locatorIndex_ok_iff.2 ⟨l 0, l 1, l 2, l 3, locatorParts_ok_iff.2
    ⟨value (k := 0) (by decide), value (k := 1) (by decide), value (k := 2) (by decide), value (k := 3) (by decide)⟩, rfl⟩

/-- A locator fails with the error of its first failing position in the order 0, 2, 1, 3 (41_message_packer.md R127). -/
theorem locatorParts_error_iff {loc : LocBus} {e : EncodeError} :
    locatorParts loc = .error e ↔ ∃ n, n < 4 ∧
      (∀ j, j < n → ∃ v, locPosition (Spec.locOrder j) (byteAt loc (Spec.locOrder j)) = .ok v) ∧
      locPosition (Spec.locOrder n) (byteAt loc (Spec.locOrder n)) = .error e := by
  simp only [exists_first_succ]
  simp [locatorParts, bind_error_iff, locPosition, Spec.locOrder]

theorem locatorIndex_of_locFails {loc : LocBus} {e : Byte} (h : Spec.locFails loc e) :
    locatorIndex loc = .error (.invalidChar e) := by
  obtain ⟨n, hn, hbefore, hfail, rfl⟩ := h
  simp only [← locPosition_ok_iff_locClass] at hbefore
  have failing := eq_invalidChar_of_not_valid (fun _ => locPosition_ok_iff_locClass) (fun _ => locPosition_error) hfail
  rw [locatorIndex, locatorParts_error_iff.2 ⟨n, hn, hbefore, failing⟩]

theorem callInt_lt {n : Byte} {call : CallBus} {c : Nat → Nat} (h : Spec.goodCall n call c) :
    Spec.callInt c < 2 ^ 28 :=
  Nat.lt_of_le_of_lt (callInteger_le (callInteger_of_goodCall h)) (by decide)

theorem powerInt_lt {loc : LocBus} {l : Nat → Nat} (h : Spec.goodLoc loc l) (p : Byte) :
    Spec.powerInt (Spec.locIndex l) p.toNat < 2 ^ 22 :=
  Nat.lt_of_le_of_lt (powerInteger_le (locatorIndex_le (locatorIndex_of_goodLoc h)) p) (by decide)

end Sys2Proof.Machine
end

section
/-! SUPPORT. What the packer's commands answer for accepted and for failing operands (41_message_packer.md R125, R129, R131,
R133, R134, R139): the registers they write, and the error they report. -/

namespace Sys2Proof.Machine

/-- A command whose outcome is an error completes with that error's response (60_exceptions.md R236). -/
theorem exec_of_error_outcome {i : Instr} {s : State} {err : EncodeError}
    (h : commandOutcome s.config i = some (.error err)) :
    ∃ d, exec i s = .next (Spec.answered s d (statusOf err) (errByteOf err) 0) :=
  exec_of_outcome h

theorem exec_encCall_of_ok {n : Byte} {call : CallBus} {N : Nat} (h : callInteger n call = .ok N) (s : State) :
    exec (.encCall n call) s = .next
      (Spec.answered s { s.datapath with N := BitVec.ofNat 28 N } 0 0 (BitVec.ofNat 324 N)) := by
  have := callInteger_le h
  rw [exec, execEncCall, callStage, h, finish_ok, setWidth_ofNat_of_lt (by omega)]
  rfl

theorem exec_encM1_of_ok {loc : LocBus} {m1 : Nat} (h : locatorIndex loc = .ok m1) (s : State) :
    exec (.encM1 loc) s = .next
      (Spec.answered s { s.datapath with m1 := BitVec.ofNat 15 m1 } 0 0 (BitVec.ofNat 324 m1)) := by
  have := locatorIndex_le h
  rw [exec, execEncM1, locStage, h, finish_ok, setWidth_ofNat_of_lt (by omega)]
  rfl

theorem exec_encM_of_ok {loc : LocBus} {m1 : Nat} (h : locatorIndex loc = .ok m1) (p : Byte) (s : State) :
    exec (.encM loc p) s = .next (Spec.answered s
      { s.datapath with m1 := BitVec.ofNat 15 m1, m := BitVec.ofNat 22 (powerInteger m1 p) } 0 0
      (BitVec.ofNat 324 (powerInteger m1 p))) := by
  have := powerInteger_le (locatorIndex_le h) p
  rw [exec, execEncM, locPowerStage, locStage, h, finish_ok, powerStage, toNat_m1_register (locatorIndex_le h),
    setWidth_ofNat_of_lt (by omega)]
  rfl

/-- ENC_M1 with status OK: the locator is accepted, and the result is its index. -/
theorem exec_encM1_ok_inv {loc : LocBus} {s t : State} (h : exec (.encM1 loc) s = .next t) (h0 : t.status = 0#2) :
    locatorIndex loc = .ok t.result.toNat := by
  obtain ⟨m1, hm, hv⟩ := map_ok_iff.1 (Option.some.inj (exec_ok_inv h h0))
  have := locatorIndex_le hm
  rw [hm, ← hv, BitVec.toNat_ofNat, Nat.mod_eq_of_lt (by omega)]

/-- MESSAGE_STR of an accepted callsign and locator answers the text of the packed message (41_message_packer.md R139). -/
theorem exec_messageStr_of_ok {n : Byte} {call : CallBus} {loc : LocBus} {N m1 : Nat} (hN : callInteger n call = .ok N)
    (hm : locatorIndex loc = .ok m1) (p : Byte) (s : State) :
    ∃ d, exec (.messageStr n call loc p) s = .next (Spec.answered s d 0 0
      ((renderHex (packMessage (BitVec.ofNat 28 N) (BitVec.ofNat 22 (powerInteger m1 p)))).setWidth 324)) :=
  exec_of_ok_outcome (by simp only [commandOutcome, packOutcome, hN, hm, Except.map])

/-- A command that lays out one integer of the packer completes with the error of that integer. -/
theorem exec_of_integer_error {i : Instr} {s : State} {x : Except EncodeError Nat} {layout : Nat → ResultBus}
    {err : EncodeError} (hx : x = .error err) (h : commandOutcome s.config i = some (x.map layout)) :
    ∃ d, exec i s = .next (Spec.answered s d (statusOf err) (errByteOf err) 0) :=
  exec_of_error_outcome (by rw [h, hx]; rfl)

theorem packOutcome_of_call_error {n : Byte} {call : CallBus} {err : EncodeError} (h : callInteger n call = .error err)
    (loc : LocBus) (p : Byte) : packOutcome n call loc p = .error err := by
  rw [packOutcome, h]

theorem packOutcome_of_loc_error {n : Byte} {call : CallBus} {loc : LocBus} {N : Nat} {err : EncodeError}
    (hN : callInteger n call = .ok N) (h : locatorIndex loc = .error err) (p : Byte) :
    packOutcome n call loc p = .error err := by
  simp only [packOutcome, hN, h]

/-- The three commands that pack a station record report the packer's error (41_message_packer.md R134, 45_pipeline.md
R211). -/
theorem commandOutcome_of_pack_error {n : Byte} {call : CallBus} {loc : LocBus} {p : Byte} {err : EncodeError}
    (h : packOutcome n call loc p = .error err) {i : Instr}
    (hi : i ∈ [Instr.message n call loc p, .messageStr n call loc p, .encode n call loc p]) (config : Configuration) :
    commandOutcome config i = some (.error err) := by
  simp only [List.mem_cons, List.not_mem_nil, or_false] at hi
  rcases hi with rfl | rfl | rfl <;> simp only [commandOutcome, h, Except.map]

end Sys2Proof.Machine
end

section
/-! SUPPORT. The bytes of MESSAGE and the characters of MESSAGE_STR as numbers (41_message_packer.md R132, R137, R138). -/

namespace Sys2Proof.Machine

/-- The result is 0 above the value laid out in it (30_encoding.md R76). -/
theorem getLsbD_setWidth_of_ge {m n b : Nat} (v : BitVec m) (h : m ≤ b) : (v.setWidth n).getLsbD b = false := by
  rw [BitVec.getLsbD_setWidth, BitVec.getLsbD_of_ge v b h, Bool.and_false]

theorem byte_eq_of_toNat {b : Byte} {v : Nat} (h : b.toNat = v) : b = BitVec.ofNat 8 v := by
  rw [← h, BitVec.ofNat_toNat, BitVec.setWidth_eq]

theorem hexDig_eq_hexCode (d : BitVec 4) : hexDig d = BitVec.ofNat 8 (Spec.hexCode d.toNat) :=
  (apply_ite (BitVec.ofNat 8) _ _ _).symm

theorem hexDig_high (b : Byte) : hexDig (b.extractLsb' 4 4) = BitVec.ofNat 8 (Spec.hexCode (b.toNat / 16)) := by
  have := b.isLt
  rw [hexDig_eq_hexCode, BitVec.extractLsb'_toNat, Nat.shiftRight_eq_div_pow, Nat.mod_eq_of_lt (by omega)]

theorem hexDig_low (b : Byte) : hexDig (b.extractLsb' 0 4) = BitVec.ofNat 8 (Spec.hexCode (b.toNat % 16)) := by
  rw [hexDig_eq_hexCode, BitVec.extractLsb'_toNat, Nat.shiftRight_zero]

/-- Character `q` of the rendering of a packed message (41_message_packer.md R137). -/
theorem hexByte_packMessage (N : BitVec 28) (m : BitVec 22) {q : Nat} (hq : q < 20) :
    hexByte (packMessage N m) q = BitVec.ofNat 8 (Spec.textByte N.toNat m.toNat q) := by
  unfold hexByte Spec.textByte
  split
  · rw [hexDig_high, toNat_byteAt_packMessage N m (by omega)]
  · split
    · rw [hexDig_low, toNat_byteAt_packMessage N m (by omega)]
    · rfl

/-- The characters of MESSAGE_STR's result for an N and an m that fit their registers. -/
theorem byteAt_messageStrResult {N m q : Nat} (hN : N < 2 ^ 28) (hm : m < 2 ^ 22) (hq : q < 20) :
    byteAt ((renderHex (packMessage (BitVec.ofNat 28 N) (BitVec.ofNat 22 m))).setWidth 324) q =
      BitVec.ofNat 8 (Spec.textByte N m q) := by
  rw [byteAt_setWidth _ (by omega), byteAt_renderHex _ hq, hexByte_packMessage _ _ hq, BitVec.toNat_ofNat,
    BitVec.toNat_ofNat, Nat.mod_eq_of_lt hN, Nat.mod_eq_of_lt hm]

end Sys2Proof.Machine
end

section
/-! SUPPORT. The statements of 41_message_packer.md. -/

namespace Sys2Proof.Machine

/-- Settles O3: an accepted callsign is `exec_encCall_of_ok`, a failing one raises its first failure. -/
theorem encCallFollowsItsRule : Obligations.EncCallFollowsItsRule := by
  refine ⟨fun r hop => by rw [decode, hop]; rfl, fun s n call => ⟨fun c hc => ?_, fun st e hf => ?_⟩⟩
  · exact exec_encCall_of_ok (callInteger_of_goodCall hc) s
  · obtain ⟨err, he, rfl, rfl⟩ := callInteger_of_callFails hf
    exact exec_of_integer_error he rfl

/-- Settles O5: the bound is that of the call integer, and `"  9   "` has the values 36, 36, 9, 36, 36, 36. -/
theorem callIntegerRange : Obligations.CallIntegerRange := by
  refine ⟨fun s t n call h h0 => ?_, fun s => ⟨_, exec_encCall_of_ok ?_ s⟩⟩
  · have := callInteger_le (exec_encCall_ok_inv h h0)
    exact ⟨this, by omega⟩
  · decide +kernel

/-- Settles O6: an accepted locator is `exec_encM1_of_ok`, a failing one raises its first failure. -/
theorem encM1FollowsItsRule : Obligations.EncM1FollowsItsRule := by
  refine ⟨fun r hop => by rw [decode, hop]; rfl, fun s loc => ⟨fun l hl => ?_, fun e hf => ?_⟩⟩
  · exact exec_encM1_of_ok (locatorIndex_of_goodLoc hl) s
  · exact exec_of_integer_error (locatorIndex_of_locFails hf) rfl

/-- Settles O7: the bound is that of the locator index, and the two locators evaluate to its ends. -/
theorem locatorIndexRange : Obligations.LocatorIndexRange := by
  refine ⟨fun s t loc h h0 => locatorIndex_le (exec_encM1_ok_inv h h0), fun s => ⟨_, exec_encM1_of_ok ?_ s⟩,
    fun s => ⟨_, exec_encM1_of_ok ?_ s⟩⟩
  · decide +kernel
  · decide +kernel

/-- Settles O8: an accepted locator is `exec_encM_of_ok` for every power, a failing one raises the error of ENC_M1. -/
theorem encMFollowsItsRule : Obligations.EncMFollowsItsRule := by
  refine ⟨fun r hop => by rw [decode, hop]; rfl, fun s loc p => ⟨fun l hl => ?_, fun e hf => ?_⟩⟩
  · exact exec_encM_of_ok (locatorIndex_of_goodLoc hl) p s
  · exact exec_of_integer_error (locatorIndex_of_locFails hf) rfl

/-- Settles O9: ENC_M reads the locator of ENC_M1, and m1 is at most 32399. -/
theorem powerIntegerRange : Obligations.PowerIntegerRange := by
  intro s loc p t h h0
  have hm := exec_encM1_ok_inv h h0
  have bound := locatorIndex_le hm
  have hp := p.isLt
  have value : (BitVec.ofNat 324 (powerInteger t.result.toNat p)).toNat = t.result.toNat * 128 + p.toNat + 64 := by
    rw [powerInteger, BitVec.toNat_ofNat, Nat.mod_eq_of_lt (by omega)]
  refine ⟨_, exec_encM_of_ok hm p s, rfl, value, ?_⟩
  simp only [Spec.answered, value]
  omega

/-- Settles O10: the bytes of MESSAGE's result are those of R132. -/
theorem messagePacksBytes : Obligations.MessagePacksBytes := by
  refine ⟨fun r hop => by rw [decode, hop]; rfl, fun s n call loc p c l hc hl => ?_⟩
  obtain ⟨d, hd⟩ := exec_message_of_ok (callInteger_of_goodCall hc) (locatorIndex_of_goodLoc hl) p s
  exact ⟨_, d, hd, fun k hk => byte_eq_of_toNat (toNat_byteAt_messageResult (callInt_lt hc) (powerInt_lt hl p) hk),
    fun b hb => getLsbD_setWidth_of_ge _ hb⟩

/-- Settles O12: the two callsigns have the same N, and the two locator and power pairs the same m. -/
theorem packingAliases : Obligations.PackingAliases := by
  refine ⟨fun s n call call' c c' hc hc' h1 h1' h0 hrest => ?_, fun s loc loc' l l' p hl hl' hnext hp => ?_⟩
  · have sameN : Spec.callInt c' = Spec.callInt c := by
      simp only [Spec.callInt, h1, h1', h0, hrest 2 (by decide), hrest 3 (by decide), hrest 4 (by decide),
        hrest 5 (by decide)]
      omega
    have answer' := exec_encCall_of_ok (callInteger_of_goodCall hc') s
    rw [sameN] at answer'
    exact ⟨_, _, _, exec_encCall_of_ok (callInteger_of_goodCall hc) s, answer'⟩
  · have power : (p - 128#8).toNat = p.toNat - 128 := BitVec.toNat_sub_of_le hp
    have sameM : powerInteger (Spec.locIndex l') (p - 128#8) = powerInteger (Spec.locIndex l) p := by
      simp only [powerInteger, hnext, power]
      omega
    have answer' := exec_encM_of_ok (locatorIndex_of_goodLoc hl') (p - 128#8) s
    rw [sameM] at answer'
    exact ⟨_, _, _, exec_encM_of_ok (locatorIndex_of_goodLoc hl) p s, answer'⟩

/-- Settles O13: the characters of MESSAGE_STR's result are those of R137. -/
theorem messageStrRendersHex : Obligations.MessageStrRendersHex := by
  refine ⟨fun r hop => by rw [decode, hop]; rfl, fun s n call loc p c l hc hl => ?_⟩
  obtain ⟨d, hd⟩ := exec_messageStr_of_ok (callInteger_of_goodCall hc) (locatorIndex_of_goodLoc hl) p s
  exact ⟨_, d, hd, fun q hq => byteAt_messageStrResult (callInt_lt hc) (powerInt_lt hl p) hq,
    fun b hb => getLsbD_setWidth_of_ge _ hb⟩

/-- Settles O14: the packer looks at the callsign first, and its error is the outcome of all three commands. -/
theorem packerErrorsInOrder : Obligations.PackerErrorsInOrder := by
  intro s n call loc p i hi
  refine ⟨fun st e hf => ?_, fun c e hc hf => ?_⟩
  · obtain ⟨err, he, rfl, rfl⟩ := callInteger_of_callFails hf
    exact exec_of_error_outcome (commandOutcome_of_pack_error (packOutcome_of_call_error he loc p) hi s.config)
  · have he := packOutcome_of_loc_error (callInteger_of_goodCall hc) (locatorIndex_of_locFails hf) p
    exact exec_of_error_outcome (commandOutcome_of_pack_error he hi s.config)

/-- Settles O4: the length is the first thing checked, by ENC_CALL and by the packer. -/
theorem wrongLengthIsInvalidCallsign : Obligations.WrongLengthIsInvalidCallsign := by
  intro s n call loc p i hn hi
  have he := callInteger_of_wrong_length hn call
  rcases List.mem_cons.1 hi with rfl | hpack
  · exact exec_of_integer_error he rfl
  · exact exec_of_error_outcome (commandOutcome_of_pack_error (packOutcome_of_call_error he loc p) hpack s.config)

end Sys2Proof.Machine
end

section
/-! SUPPORT. XOR sums and the closed form of a coded bit (42_convolutional_encoder.md R157): what they depend on, and that
they are linear. -/

namespace Sys2Proof.Machine

open Sys2Proof.Spec

theorem xorBelow_congr {f g : Nat → Bool} {n : Nat} (h : ∀ i, i < n → f i = g i) : xorBelow f n = xorBelow g n := by
  induction n with
  | zero => rfl
  | succ n ih =>
    have below : xorBelow f n = xorBelow g n := ih fun i hi => h i (by omega)
    rw [xorBelow, xorBelow, below, h n (by omega)]

theorem xorBelow_of_zero_tail {f : Nat → Bool} {m n : Nat} (hmn : m ≤ n) (h : ∀ i, m ≤ i → i < n → f i = false) :
    xorBelow f n = xorBelow f m := by
  induction n, hmn using Nat.le_induction with
  | base => rfl
  | succ n hmn ih => rw [xorBelow, ih fun i hm hi => h i hm (by omega), h n hmn (by omega), Bool.xor_false]

theorem xorBelow_xor (f g : Nat → Bool) (n : Nat) :
    xorBelow (fun i => (f i).xor (g i)) n = (xorBelow f n).xor (xorBelow g n) := by
  induction n with
  | zero => rfl
  | succ n ih => simp only [xorBelow, ih, Bool.xor_assoc, Bool.xor_left_comm]

/-- Terms that differ in one place only have different sums. -/
theorem xorBelow_ne_of_ne_at {f g : Nat → Bool} {k n : Nat} (hk : k < n) (hne : f k ≠ g k)
    (h : ∀ i, i < n → i ≠ k → f i = g i) : xorBelow f n ≠ xorBelow g n := by
  induction n with
  | zero => omega
  | succ n ih =>
    rw [xorBelow, xorBelow]
    by_cases last : k = n
    · subst last
      rw [xorBelow_congr fun i hi => h i (by omega) (by omega)]
      exact fun e => hne (Bool.xor_right_inj.1 e)
    · rw [h n (by omega) (Ne.symm last)]
      exact fun e => ih (by omega) (fun i hi => h i (by omega)) (Bool.xor_left_inj.1 e)

theorem tap_congr {u v : Nat → Bool} {t : Nat} (h : ∀ j, j ≤ t → t ≤ j + 31 → u j = v j) (poly : Nat) :
    tap poly u t = tap poly v t :=
  xorBelow_congr fun i hi => by rw [h (t - i) (by omega) (by omega)]

theorem tap_xor (poly : Nat) (u v : Nat → Bool) (t : Nat) :
    tap poly (fun j => (u j).xor (v j)) t = (tap poly u t).xor (tap poly v t) := by
  simp only [tap, Bool.and_xor_distrib_left, xorBelow_xor]

/-- A coded bit depends on every input bit of the window that its polynomial taps. -/
theorem tap_ne_of_ne_at {poly t old : Nat} {u v : Nat → Bool} (hold : old ≤ t) (hwindow : t ≤ old + 31)
    (htap : poly.testBit (t - old) = true) (hne : u old ≠ v old)
    (h : ∀ j, j ≤ t → t ≤ j + 31 → j ≠ old → u j = v j) : tap poly u t ≠ tap poly v t := by
  refine xorBelow_ne_of_ne_at (k := t - old) (by omega) ?_ fun i hi hne' => ?_
  · rwa [htap, Nat.sub_sub_self hold, Bool.true_and, Bool.true_and]
  · rw [h (t - i) (by omega) (by omega) (by omega)]

/-- The XOR of the set bits of `x` below bit `n`. -/
def xorOfBits {w : Nat} (x : BitVec w) (n : Nat) : BitVec w :=
  (List.range n).foldl (fun acc b => if x.getLsbD b then acc ^^^ BitVec.twoPow w b else acc) 0

theorem xorOfBits_succ {w : Nat} (x : BitVec w) (n : Nat) :
    xorOfBits x (n + 1) = if x.getLsbD n then xorOfBits x n ^^^ BitVec.twoPow w n else xorOfBits x n := by
  rw [xorOfBits, List.range_succ, List.foldl_append, List.foldl_cons, List.foldl_nil, ← xorOfBits]

theorem getLsbD_xorOfBits {w i : Nat} (x : BitVec w) (n : Nat) (hi : i < w) :
    (xorOfBits x n).getLsbD i = (decide (i < n) && x.getLsbD i) := by
  induction n with
  | zero => exact BitVec.getLsbD_zero
  | succ n ih =>
    rw [xorOfBits_succ, apply_ite (fun v : BitVec w => v.getLsbD i), BitVec.getLsbD_xor, BitVec.getLsbD_twoPow, ih]
    by_cases e : i = n
    · subst e
      cases x.getLsbD i <;> simp [hi]
    · simp [Ne.symm e, show i < n + 1 ↔ i < n by omega]

theorem xorOfBits_self {w : Nat} (x : BitVec w) : xorOfBits x w = x := by
  refine BitVec.eq_of_getLsbD_eq fun i hi => ?_
  rw [getLsbD_xorOfBits x w hi, decide_eq_true hi, Bool.true_and]

/-- An additive function of a bus is the XOR of its values at the set bits. -/
theorem eq_foldl_of_additive {w n : Nat} {f : BitVec w → BitVec n} (hadd : ∀ x y, f (x ^^^ y) = f x ^^^ f y)
    (hzero : f 0 = 0) (x : BitVec w) :
    f x = (List.range w).foldl (fun acc b => if x.getLsbD b then acc ^^^ f (BitVec.twoPow w b) else acc) 0 := by
  conv_lhs => rw [← xorOfBits_self x, xorOfBits]
  rw [← hzero]
  refine (List.foldl_hom f fun acc b => ?_).symm
  split
  · rw [hadd]
  · rfl

end Sys2Proof.Machine
end

section
/-! SUPPORT. CONV in the closed form of 42_convolutional_encoder.md R157: its answer, the datapath it leaves, and every
bit of its result. -/

namespace Sys2Proof.Machine

open Sys2Proof.Spec

/-- The result CONV lays out (42_convolutional_encoder.md R156). -/
def convResult (msg : MsgBus) : ResultBus := (convolve (padMessage msg)).coded.setWidth 324

/-- CONV completes on every message (42_convolutional_encoder.md R150, R156). -/
theorem exec_conv (s : State) (msg : MsgBus) :
    exec (.conv msg) s = .next (answered s (convStage msg s.datapath) 0 0 (convResult msg)) := by
  rw [exec, execConv, finish_ok]
  rfl

/-- The padded message is read MSB first, byte by byte, then as zeros (42_convolutional_encoder.md R153). -/
theorem inputBit_padMessage (msg : MsgBus) : inputBit (padMessage msg) = messageBit msg := by
  funext t
  have lane : 7 - t % 8 < 8 := by omega
  simp only [inputBit, padMessage, messageBit, getLsbD_byteAt, BitVec.getLsbD_setWidth, decide_eq_true lane, Bool.true_and]
  by_cases ht : t < 56
  · rw [decide_eq_true ht, decide_eq_true (by omega)]
  · rw [decide_eq_false ht, BitVec.getLsbD_of_ge msg _ (by omega), Bool.and_false, Bool.false_and]

theorem convolve_padMessage_exit (msg : MsgBus) : LoopExit (messageBit msg) (convolve (padMessage msg)) :=
  inputBit_padMessage msg ▸ convolve_exit (padMessage msg)

theorem parityBelow_eq_xorBelow {w : Nat} (v : BitVec w) (n : Nat) : parityBelow v n = xorBelow v.getLsbD n := by
  induction n with
  | zero => rfl
  | succ n ih => rw [parityBelow, xorBelow, ih]

/-- The parity of a masked register is the closed form: register bits above bit `t` are still 0
(42_convolutional_encoder.md R157). -/
theorem parity32_windowOf (u : Nat → Bool) (t : Nat) (poly : BitVec 32) :
    parity32 (windowOf u t &&& poly) = tap poly.toNat u t := by
  have bit : ∀ i, (windowOf u t &&& poly).getLsbD i = (decide (i < 32 ∧ i ≤ t) && u (t - i) && poly.getLsbD i) := by
    intro i
    rw [BitVec.getLsbD_and, getLsbD_windowOf]
  rw [parity32, parityBelow_eq_xorBelow, tap, xorBelow_of_zero_tail (m := min t 31 + 1) (by omega)]
  · refine xorBelow_congr fun i hi => ?_
    rw [bit, decide_eq_true (by omega), Bool.true_and, Bool.and_comm, BitVec.testBit_toNat]
  · intro i hm hi
    rw [bit, decide_eq_false (by omega), Bool.false_and, Bool.false_and]

theorem getLsbD_convResult (msg : MsgBus) {b : Nat} (hb : b < 162) :
    (convResult msg).getLsbD b = (convolve (padMessage msg)).coded.getLsbD b := by
  rw [convResult, BitVec.getLsbD_setWidth, decide_eq_true (by omega), Bool.true_and]

theorem getLsbD_convResult_even (msg : MsgBus) {t : Nat} (ht : t ≤ 80) :
    (convResult msg).getLsbD (2 * t) = tap 0xF2D05351 (messageBit msg) t := by
  rw [getLsbD_convResult msg (by omega), (convolve_padMessage_exit msg).even t ht]
  exact parity32_windowOf (messageBit msg) t poly0

theorem getLsbD_convResult_odd (msg : MsgBus) {t : Nat} (ht : t ≤ 80) :
    (convResult msg).getLsbD (2 * t + 1) = tap 0xE4613C47 (messageBit msg) t := by
  rw [getLsbD_convResult msg (by omega), (convolve_padMessage_exit msg).odd t ht]
  exact parity32_windowOf (messageBit msg) t poly1

theorem getLsbD_convResult_of_ge (msg : MsgBus) {b : Nat} (hb : 162 ≤ b) : (convResult msg).getLsbD b = false :=
  getLsbD_setWidth_of_ge _ hb

/-- A result that agrees with CONV's on both coded bits of every step, and is 0 above them, is CONV's. -/
theorem convResult_eq_of {msg : MsgBus} {v : ResultBus}
    (heven : ∀ t, t ≤ 80 → v.getLsbD (2 * t) = tap 0xF2D05351 (messageBit msg) t)
    (hodd : ∀ t, t ≤ 80 → v.getLsbD (2 * t + 1) = tap 0xE4613C47 (messageBit msg) t)
    (hge : ∀ b, 162 ≤ b → v.getLsbD b = false) : convResult msg = v := by
  refine BitVec.eq_of_getLsbD_eq fun b _ => ?_
  by_cases hb : b < 162
  · rcases Nat.even_or_odd' b with ⟨t, rfl | rfl⟩
    · rw [getLsbD_convResult_even msg (by omega), heven t (by omega)]
    · rw [getLsbD_convResult_odd msg (by omega), hodd t (by omega)]
  · rw [getLsbD_convResult_of_ge msg (by omega), hge b (by omega)]

theorem messageBit_xor (x y : MsgBus) : messageBit (x ^^^ y) = fun j => (messageBit x j).xor (messageBit y j) := by
  funext j
  rw [messageBit, messageBit, messageBit, BitVec.getLsbD_xor, Bool.and_xor_distrib_left]

theorem convResult_xor (x y : MsgBus) : convResult (x ^^^ y) = convResult x ^^^ convResult y := by
  refine convResult_eq_of (fun t ht => ?_) (fun t ht => ?_) fun b hb => ?_ <;> rw [BitVec.getLsbD_xor]
  · rw [messageBit_xor, tap_xor, getLsbD_convResult_even x ht, getLsbD_convResult_even y ht]
  · rw [messageBit_xor, tap_xor, getLsbD_convResult_odd x ht, getLsbD_convResult_odd y ht]
  · rw [getLsbD_convResult_of_ge x hb, getLsbD_convResult_of_ge y hb, Bool.xor_false]

theorem convResult_zero : convResult 0 = 0 := by
  have h := convResult_xor 0 0
  rwa [BitVec.xor_self, BitVec.xor_self] at h

/-- Both registers hold the last 32 input bits at the exit, bit `i` the one `i` steps back (42_convolutional_encoder.md
R155, R157). -/
theorem getLsbD_windowOf_exit (u : Nat → Bool) {i : Nat} (hi : i < 32) : (windowOf u 80).getLsbD i = u (80 - i) := by
  rw [getLsbD_windowOf, decide_eq_true (by omega), Bool.true_and]

end Sys2Proof.Machine
end

section
/-! SUPPORT. The statements of 42_convolutional_encoder.md. -/

namespace Sys2Proof.Machine

open Sys2Proof.Spec

/-- Settles O15: every coded bit is the parity of a masked window of the message. -/
theorem convClosedForm : Obligations.ConvClosedForm := by
  intro s msg
  exact ⟨_, _, exec_conv s msg, fun t ht => ⟨getLsbD_convResult_even msg ht, getLsbD_convResult_odd msg ht⟩,
    fun b hb => getLsbD_convResult_of_ge msg hb⟩

/-- Settles O16: the closed form is additive in the message, and a message is the XOR of its set bits. -/
theorem convIsLinear : Obligations.ConvIsLinear :=
  ⟨convResult, fun s msg => ⟨_, exec_conv s msg⟩, convResult_xor, convResult_zero,
    eq_foldl_of_additive convResult_xor convResult_zero⟩

/-- Settles O17: the closed form reads the window only, and both polynomials tap its bits 0 and 31. -/
theorem convConstraintLength : Obligations.ConvConstraintLength := by
  refine ⟨convResult, fun s msg => ⟨_, exec_conv s msg⟩, fun x y t ht h => ?_, fun x y t old ht hold hne h => ?_⟩ <;>
    rw [getLsbD_convResult_even x ht, getLsbD_convResult_even y ht, getLsbD_convResult_odd x ht, getLsbD_convResult_odd y ht]
  · exact ⟨tap_congr h _, tap_congr h _⟩
  · have taps : t - old = 0 ∨ t - old = 31 := by omega
    have tap0 : Nat.testBit 0xF2D05351 (t - old) = true := by rcases taps with e | e <;> rw [e] <;> decide
    have tap1 : Nat.testBit 0xE4613C47 (t - old) = true := by rcases taps with e | e <;> rw [e] <;> decide
    exact ⟨tap_ne_of_ne_at (by omega) (by omega) tap0 hne h, tap_ne_of_ne_at (by omega) (by omega) tap1 hne h⟩

/-- Settles O18: the loop exits with 81 input bits shifted in, and nothing drains the registers after it. -/
theorem convTruncates : Obligations.ConvTruncates := by
  intro s msg
  obtain ⟨index, count, reg0, reg1, -, -⟩ := convolve_padMessage_exit msg
  refine ⟨_, exec_conv s msg, ?_, ?_, fun i hi => ⟨?_, ?_⟩⟩
  · simp only [answered, convStage, index]; rfl
  · simp only [answered, convStage, count]; rfl
  · simp only [answered, convStage, reg0, getLsbD_windowOf_exit _ hi]
  · simp only [answered, convStage, reg1, getLsbD_windowOf_exit _ hi]

end Sys2Proof.Machine
end

section
/-! SUPPORT. The tables PERM and INV of 43_channel_interleaver.md R175 and R176, and INTERLEAVE's answer through them. -/

namespace Sys2Proof.Machine

open Sys2Proof.Spec

/-- The loop of R173 places coded bit p at PERM[p]: the bridge from the model's loop to the table of R175. -/
theorem placements_eq_perm : placements = (List.range 162).map fun p => (p, perm p) := by decide +kernel

theorem perm_lt : ∀ p < 162, perm p < 162 := by decide +kernel

theorem inv_lt : ∀ q < 162, inv q < 162 := by decide +kernel

theorem perm_inv : ∀ q < 162, perm (inv q) = q := by decide +kernel

/-- The low bit of a position is the high bit of the reversed index, so the parity tells the half of the source
(43_channel_interleaver.md R178). -/
theorem perm_mod_two : ∀ p < 162, perm p % 2 = p / 81 := by decide +kernel

theorem perm_spreads_neighbours : ∀ p < 161, perm p + 32 ≤ perm (p + 1) ∨ perm (p + 1) + 32 ≤ perm p := by
  decide +kernel

/-- The result INTERLEAVE lays out (43_channel_interleaver.md R177). -/
def interleaveResult (bits : BitSeq) : ResultBus := (interleave bits).inter.setWidth 324

/-- INTERLEAVE completes on every input (43_channel_interleaver.md R170, R177). -/
theorem exec_interleave (s : State) (bits : BitSeq) :
    ∃ d, exec (.interleave bits) s = .next (answered s d 0 0 (interleaveResult bits)) :=
  exec_of_ok_outcome rfl

theorem getLsbD_interleaveResult_perm (bits : BitSeq) {p : Nat} (hp : p < 162) :
    (interleaveResult bits).getLsbD (perm p) = bits.getLsbD p := by
  have hr := perm_lt p hp
  have placed : (p, perm p) ∈ placements := by
    rw [placements_eq_perm]
    exact List.mem_map_of_mem (List.mem_range.2 hp)
  rw [interleaveResult, BitVec.getLsbD_setWidth, decide_eq_true (by omega), Bool.true_and]
  exact getLsbD_interleave bits hr placed

theorem getLsbD_interleaveResult (bits : BitSeq) {q : Nat} (hq : q < 162) :
    (interleaveResult bits).getLsbD q = bits.getLsbD (inv q) := by
  have h := getLsbD_interleaveResult_perm bits (inv_lt q hq)
  rwa [perm_inv q hq] at h

end Sys2Proof.Machine
end

section
/-! SUPPORT. The statements of 43_channel_interleaver.md. -/

namespace Sys2Proof.Machine

open Sys2Proof.Spec

/-- Settles O19: the loop places coded bit p at PERM[p], and PERM takes INV[q] to q. -/
theorem interleavePermutes : Obligations.InterleavePermutes := by
  intro s bits
  obtain ⟨d, hd⟩ := exec_interleave s bits
  exact ⟨_, d, hd, fun p hp => getLsbD_interleaveResult_perm bits hp,
    fun q hq => getLsbD_interleaveResult bits hq, fun b hb => getLsbD_setWidth_of_ge _ hb⟩

/-- Settles O20: the position of coded bit p is PERM[p]; the half of p decides its parity, and INV makes it onto. -/
theorem interleaveSpreadsNeighbours : Obligations.InterleaveSpreadsNeighbours := by
  refine ⟨perm, fun s bits => ?_, perm_lt, fun p hp => ?_, fun p hp hp' => ?_, fun q hq => ?_,
    perm_spreads_neighbours, rfl, rfl⟩
  · obtain ⟨d, hd⟩ := exec_interleave s bits
    exact ⟨_, d, hd, fun p hp => getLsbD_interleaveResult_perm bits hp,
      getLsbD_interleaveResult bits (q := 161) (by decide), getLsbD_interleaveResult bits (q := 0) (by decide)⟩
  · rw [perm_mod_two p (by omega)]; omega
  · rw [perm_mod_two p hp']; omega
  · exact ⟨inv q, inv_lt q hq, perm_inv q hq⟩

end Sys2Proof.Machine
end

section
/-! SUPPORT. The symbol of one index (44_symbol_mapper.md R191, R193), and MAP's answer through it. -/

namespace Sys2Proof.Machine

open Sys2Proof.Spec

/-- The result of the mapping loop on the interleaved bits `inter` (44_symbol_mapper.md R194, R195). -/
def mapResult (mode : LastSymbolMode) (sync inter : BitSeq) : ResultBus := symbolsOf (symbolOf mode sync inter) 324

theorem symbolOf_eq_symbol (mode : LastSymbolMode) (sync inter : BitSeq) {i : Nat} (hi : i < 162) :
    symbolOf mode sync inter i = symbol mode sync i (inter.getLsbD i) := by
  by_cases last : i = 161
  · subst last; cases mode <;> rfl
  · exact (if_pos (by omega)).trans (if_neg last).symm

theorem symbolAt_mapResult (mode : LastSymbolMode) (sync inter : BitSeq) {i : Nat} (hi : i < 162) :
    symbolAt (mapResult mode sync inter) i = symbol mode sync i (inter.getLsbD i) := by
  rw [mapResult, symbolAt_symbolsOf _ (by omega), symbolOf_eq_symbol mode sync inter hi]

theorem mapOutcome_of_fixed {config : Configuration} {sync : BitSeq} {mode : LastSymbolMode}
    (hsync : config.sync = some sync) (hmode : config.lastSymbolMode = some mode) (inter : BitSeq) :
    mapOutcome config inter = some (.ok (mapResult mode sync inter)) := by
  rw [mapOutcome, hsync, hmode]; rfl

/-- MAP completes with status OK once both parameters are fixed (44_symbol_mapper.md R195). -/
theorem exec_map {s : State} {sync : BitSeq} {mode : LastSymbolMode} (hsync : s.config.sync = some sync)
    (hmode : s.config.lastSymbolMode = some mode) (bits : BitSeq) :
    ∃ d, exec (.map bits) s = .next (answered s d 0 0 (mapResult mode sync bits)) :=
  exec_of_ok_outcome (mapOutcome_of_fixed hsync hmode bits)

@[simp] theorem symbol_keepInterleaved_last (sync : BitSeq) (data : Bool) :
    symbol .keepInterleaved sync 161 data = BitVec.ofNat 2 data.toNat := rfl

@[simp] theorem symbol_zero_last (sync : BitSeq) (data : Bool) : symbol .zero sync 161 data = 0#2 := rfl

/-- Every symbol is merged, but for the last one outside mode MERGE (44_symbol_mapper.md R193, R194). -/
theorem symbol_merged {mode : LastSymbolMode} {i : Nat} (h : i ≠ 161 ∨ mode = .merge) (sync : BitSeq) (data : Bool) :
    symbol mode sync i data = mergeSymbol data (sync.getLsbD i) := by
  by_cases last : i = 161
  · subst last
    rw [h.resolve_left (fun hne => hne rfl)]; rfl
  · exact if_neg last

/-- The data bit is the high bit of a merged symbol, the sync bit its low bit (44_symbol_mapper.md R191). -/
theorem mergeSymbol_mod_div (data sync : Bool) :
    (mergeSymbol data sync).toNat % 2 = sync.toNat ∧ (mergeSymbol data sync).toNat / 2 = data.toNat := by
  cases data <;> cases sync <;> decide

/-- Outside mode MERGE the last symbol is 0 or 1 (44_symbol_mapper.md R193). -/
theorem last_symbol_div_two {mode : LastSymbolMode} (h : mode ≠ .merge) (sync : BitSeq) (data : Bool) :
    (symbol mode sync 161 data).toNat / 2 = 0 := by
  cases mode with
  | merge => exact absurd rfl h
  | keepInterleaved => rw [symbol_keepInterleaved_last]; cases data <;> rfl
  | zero => rw [symbol_zero_last]; rfl

theorem last_symbol_of_zero_bits {sync : BitSeq} (h : sync.getLsbD 161 = false) (mode : LastSymbolMode) :
    symbol mode sync 161 false = 0#2 := by
  cases mode with
  | merge => rw [symbol_merged (.inr rfl), h]; rfl
  | keepInterleaved => rfl
  | zero => rfl

/-- The mode decides the last symbol only, and that one is 0 in every mode where both its bits are 0. -/
theorem mapResult_mode_irrel {sync inter : BitSeq} (hinter : inter.getLsbD 161 = false)
    (hsync : sync.getLsbD 161 = false) (mode mode' : LastSymbolMode) :
    mapResult mode sync inter = mapResult mode' sync inter := by
  refine eq_of_symbolAt_eq fun i hi => ?_
  rw [symbolAt_mapResult mode sync inter hi, symbolAt_mapResult mode' sync inter hi]
  by_cases last : i = 161
  · subst last
    rw [hinter, last_symbol_of_zero_bits hsync mode, last_symbol_of_zero_bits hsync mode']
  · rw [symbol_merged (.inl last), symbol_merged (.inl last)]

end Sys2Proof.Machine
end

section
/-! SUPPORT. The statements of 44_symbol_mapper.md. -/

namespace Sys2Proof.Machine

open Sys2Proof.Spec

/-- Settles O21: the result of the mapping loop read symbol by symbol. -/
theorem mapFollowsItsRule : Obligations.MapFollowsItsRule := by
  refine ⟨fun r hop => by rw [decode, hop]; rfl, fun s bits sync mode hsync hmode => ?_⟩
  obtain ⟨d, hd⟩ := exec_map hsync hmode bits
  exact ⟨_, d, hd, fun i hi => symbolAt_mapResult mode sync bits hi⟩

/-- Settles O22: a merged symbol holds both bits; outside MERGE the last symbol is below 2, so it loses a data bit 1. -/
theorem symbolsRecoverBitsAndSync : Obligations.SymbolsRecoverBitsAndSync := by
  intro s sync mode hsync hmode
  refine ⟨fun bits => ?_, fun hne => ?_⟩
  · obtain ⟨d, hd⟩ := exec_map hsync hmode bits
    refine ⟨_, d, hd, fun i hi => ?_⟩
    have merged : i ≠ 161 ∨ mode = .merge := hi.imp Nat.ne_of_lt And.right
    rw [symbolAt_mapResult mode sync bits (by omega), symbol_merged merged]
    exact mergeSymbol_mod_div _ _
  · obtain ⟨d, hd⟩ := exec_map hsync hmode (BitVec.allOnes 162)
    refine ⟨BitVec.allOnes 162, _, d, hd, ?_⟩
    rw [symbolAt_mapResult mode sync _ (by omega), last_symbol_div_two hne]
    decide

/-- Settles O23: with both bits 161 zero, the mode does not matter to the result. -/
theorem lastSymbolModesAgreeOnZero : Obligations.LastSymbolModesAgreeOnZero := by
  intro s s' bits sync mode mode' hsync hmode hsync' hmode' hbit hsyncBit
  obtain ⟨d, hd⟩ := exec_map hsync hmode bits
  obtain ⟨d', hd'⟩ := exec_map hsync' hmode' bits
  rw [mapResult_mode_irrel hbit hsyncBit mode' mode] at hd'
  refine ⟨_, d, d', hd, hd', ?_⟩
  rw [symbolAt_mapResult mode sync bits (by omega), hbit, last_symbol_of_zero_bits hsyncBit mode]

end Sys2Proof.Machine
end

section
/-! SUPPORT. The packed message as the input bits of the encoder (20_memory.md R55, R56). -/

namespace Sys2Proof.Machine

open Sys2Proof.Spec

/-- Byte `k` of the packed message is the `k`-th byte, most significant first, of N, m and six zero bits
(41_message_packer.md R132, R135). -/
theorem packedByte_eq_div_mod {N m k : Nat} (hm : m < 2 ^ 22) (hk : k < 7) :
    packedByte N m k = (2 ^ 28 * N + 2 ^ 6 * m) / 2 ^ (8 * (6 - k)) % 2 ^ 8 := by
  match k, hk with
  | 0, _ | 1, _ | 2, _ | 3, _ | 4, _ | 5, _ | 6, _ =>
    simp only [packedByte, List.getD_cons_zero, List.getD_cons_succ]
    omega

/-- Input bit `t` of a record is bit `55 - t` of N, m and six zero bits (20_memory.md R56). -/
theorem testBit_bigEndian_eq_recordBit {N m t : Nat} (hm : m < 2 ^ 22) (ht : t < 56) :
    (2 ^ 28 * N + 2 ^ 6 * m).testBit (55 - t) = recordBit N m t := by
  rw [Nat.testBit_two_pow_mul_add N (by omega), Nat.testBit_two_pow_mul, recordBit]
  by_cases inN : t < 28
  · rw [if_neg (by omega), if_pos inN, show 55 - t - 28 = 27 - t by omega]
  · rw [if_pos (by omega), if_neg inN]
    by_cases inM : t < 50
    · rw [decide_eq_true (by omega), Bool.true_and, if_pos inM, show 55 - t - 6 = 49 - t by omega]
    · rw [decide_eq_false (by omega), Bool.false_and, if_neg inM]

/-- The encoder reads N first, then m, each from its highest bit on, then zeros (20_memory.md R56,
42_convolutional_encoder.md R153). -/
theorem messageBit_packMessage {N m : Nat} (hN : N < 2 ^ 28) (hm : m < 2 ^ 22) :
    messageBit (packMessage (BitVec.ofNat 28 N) (BitVec.ofNat 22 m)) = recordBit N m := by
  funext t
  by_cases ht : t < 56
  · have bit : 7 - t % 8 < 8 := by omega
    have place : 7 - t % 8 + 8 * (6 - t / 8) = 55 - t := by omega
    have byte := toNat_byteAt_messageResult hN hm (k := t / 8) (by omega)
    rw [byteAt_setWidth _ (by omega), packedByte_eq_div_mod hm (by omega)] at byte
    calc messageBit (packMessage (BitVec.ofNat 28 N) (BitVec.ofNat 22 m)) t
        = (byteAt (packMessage (BitVec.ofNat 28 N) (BitVec.ofNat 22 m)) (t / 8)).getLsbD (7 - t % 8) := by
          rw [messageBit, getLsbD_byteAt, decide_eq_true ht, decide_eq_true bit]
      _ = (2 ^ 28 * N + 2 ^ 6 * m).testBit (55 - t) := by
          rw [← BitVec.testBit_toNat, byte, Nat.testBit_mod_two_pow, Nat.testBit_div_two_pow, decide_eq_true bit,
            Bool.true_and, place]
      _ = recordBit N m t := testBit_bigEndian_eq_recordBit hm ht
  · rw [messageBit, decide_eq_false ht, Bool.false_and, recordBit, if_neg (by omega), if_neg (by omega)]

end Sys2Proof.Machine
end

section
/-! SUPPORT. ENCODE's answer through the results of CONV, INTERLEAVE and MAP (45_pipeline.md R210, R213), and what MESSAGE's
answer says about the packer. -/

namespace Sys2Proof.Machine

open Sys2Proof.Spec

/-- A value laid out in the result is read back from its low bits (30_encoding.md R76). -/
theorem setWidth_result_setWidth {n : Nat} (v : BitVec n) (h : n ≤ 324) : (v.setWidth 324).setWidth n = v := by
  rw [BitVec.setWidth_setWidth_of_le v h, BitVec.setWidth_eq]

/-- The interleaved bits of a message: INTERLEAVE's result on CONV's (45_pipeline.md R213). -/
def stagedBits (msg : MsgBus) : BitSeq := (interleaveResult ((convResult msg).setWidth 162)).setWidth 162

/-- The pipeline's interleaved bits are those of the staged commands: nothing is lost in the results between. -/
theorem stagedBits_eq (msg : MsgBus) : stagedBits msg = (interleave (convolve (padMessage msg)).coded).inter := by
  rw [stagedBits, convResult, interleaveResult, setWidth_result_setWidth _ (by decide),
    setWidth_result_setWidth _ (by decide)]

theorem getLsbD_stagedBits_perm (msg : MsgBus) {p : Nat} (hp : p < 162) :
    (stagedBits msg).getLsbD (perm p) = (convResult msg).getLsbD p := by
  rw [stagedBits, BitVec.getLsbD_setWidth, decide_eq_true (perm_lt p hp), Bool.true_and,
    getLsbD_interleaveResult_perm _ hp, BitVec.getLsbD_setWidth, decide_eq_true hp, Bool.true_and]

/-- ENCODE of a record that packs to `msg` completes with MAP's result on the interleaved bits of `msg`
(45_pipeline.md R210, R212). -/
theorem exec_encode_of_pack_ok {n : Byte} {call : CallBus} {loc : LocBus} {p : Byte} {msg : MsgBus} {s : State}
    {sync : BitSeq} {mode : LastSymbolMode} (h : packOutcome n call loc p = .ok msg)
    (hsync : s.config.sync = some sync) (hmode : s.config.lastSymbolMode = some mode) :
    ∃ d, exec (.encode n call loc p) s = .next (answered s d 0 0 (mapResult mode sync (stagedBits msg))) := by
  refine exec_of_ok_outcome ?_
  simp only [commandOutcome, h, ← stagedBits_eq, mapOutcome_of_fixed hsync hmode]

theorem packOutcome_of_good {n : Byte} {call : CallBus} {loc : LocBus} {c l : Nat → Nat} (hc : goodCall n call c)
    (hl : goodLoc loc l) (p : Byte) : packOutcome n call loc p =
      .ok (packMessage (BitVec.ofNat 28 (callInt c)) (BitVec.ofNat 22 (powerInt (locIndex l) p.toNat))) := by
  simp only [packOutcome, callInteger_of_goodCall hc, locatorIndex_of_goodLoc hl]
  rfl

/-- A command that completes with another status than OK had an error as its outcome, and answers that error
(60_exceptions.md R236). -/
theorem exec_error_inv {i : Instr} {s t : State} (h : exec i s = .next t) (h0 : t.status ≠ 0#2) :
    ∃ e, commandOutcome s.config i = some (.error e) ∧ t.status = statusOf e ∧ t.errByte = errByteOf e ∧
      t.result = 0 := by
  obtain ⟨o, d, ho, rfl⟩ := exec_next_inv h
  cases o with
  | ok v => exact absurd rfl h0
  | error e => exact ⟨e, ho, rfl, rfl, rfl⟩

/-- A mapped `Except` raises an error exactly when the unmapped one does. -/
theorem map_error_iff {ε α β : Type} {x : Except ε α} {f : α → β} {e : ε} :
    x.map f = .error e ↔ x = .error e := by
  cases x <;> simp [Except.map]

/-- MESSAGE with status OK: the record packs, and the result holds the packed message (41_message_packer.md R133). -/
theorem exec_message_ok_inv {n : Byte} {call : CallBus} {loc : LocBus} {p : Byte} {s t : State}
    (h : exec (.message n call loc p) s = .next t) (h0 : t.status = 0#2) :
    packOutcome n call loc p = .ok (t.result.setWidth 56) := by
  obtain ⟨msg, hmsg, hv⟩ := map_ok_iff.1 (Option.some.inj (exec_ok_inv h h0))
  rw [hmsg, ← hv, setWidth_result_setWidth msg (by decide)]

/-- MESSAGE with another status: the packer raised the error that it reports (41_message_packer.md R134). -/
theorem exec_message_error_inv {n : Byte} {call : CallBus} {loc : LocBus} {p : Byte} {s t : State}
    (h : exec (.message n call loc p) s = .next t) (h0 : t.status ≠ 0#2) :
    ∃ e, packOutcome n call loc p = .error e ∧ t.status = statusOf e ∧ t.errByte = errByteOf e ∧ t.result = 0 := by
  obtain ⟨e, ho, response⟩ := exec_error_inv h h0
  exact ⟨e, map_error_iff.1 (Option.some.inj ho), response⟩

/-- No command changes the configuration (10_state.md R33). -/
theorem exec_config {i : Instr} {s t : State} (h : exec i s = .next t) : t.config = s.config := by
  obtain ⟨o, d, -, rfl⟩ := exec_next_inv h
  exact respond_config o d s

end Sys2Proof.Machine
end

section
/-! SUPPORT. The statements of 45_pipeline.md. -/

namespace Sys2Proof.Machine

open Sys2Proof.Spec

/-- Settles O25: symbol PERM[p] carries coded bit p, and coded bits 2t and 2t + 1 tap the bits of N and m. -/
theorem encodeClosedForm : Obligations.EncodeClosedForm := by
  intro s n call loc p c l sync mode hc hl hsync hmode
  obtain ⟨d, hd⟩ := exec_encode_of_pack_ok (packOutcome_of_good hc hl p) hsync hmode
  have input := messageBit_packMessage (callInt_lt hc) (powerInt_lt hl p)
  refine ⟨_, d, hd, fun t ht => ⟨?_, ?_⟩⟩
  · rw [symbolAt_mapResult mode sync _ (perm_lt (2 * t) (by omega)), getLsbD_stagedBits_perm _ (by omega),
      getLsbD_convResult_even _ ht, input]
  · rw [symbolAt_mapResult mode sync _ (perm_lt (2 * t + 1) (by omega)), getLsbD_stagedBits_perm _ (by omega),
      getLsbD_convResult_odd _ ht, input]

/-- Settles O26: ENCODE fails with the packer's error, and otherwise answers MAP's result on the bits of the stages. -/
theorem stagedCommandsEqualEncode : Obligations.StagedCommandsEqualEncode := by
  intro s t1 n call loc p h1
  refine ⟨fun hfail => ?_, fun hok hsync hmode => ?_⟩
  · obtain ⟨e, he, hstatus, herrByte, hresult⟩ := exec_message_error_inv h1 hfail
    rw [hstatus, herrByte, hresult]
    exact exec_of_error_outcome (commandOutcome_of_pack_error he (by simp) s.config)
  · obtain ⟨sync, hsync⟩ := Option.ne_none_iff_exists'.1 hsync
    obtain ⟨mode, hmode⟩ := Option.ne_none_iff_exists'.1 hmode
    have config1 := exec_config h1
    have packed := exec_message_ok_inv h1 hok
    generalize t1.result.setWidth 56 = msg at packed ⊢
    have h2 := exec_conv t1 msg
    obtain ⟨d3, h3⟩ := exec_interleave (answered t1 (convStage msg t1.datapath) 0 0 (convResult msg))
      ((convResult msg).setWidth 162)
    have config3 := (exec_config h3).trans ((exec_config h2).trans config1)
    obtain ⟨d4, h4⟩ := exec_map (config3 ▸ hsync) (config3 ▸ hmode) (stagedBits msg)
    obtain ⟨d, hd⟩ := exec_encode_of_pack_ok packed hsync hmode
    exact ⟨_, _, _, d, h2, h3, h4, hd⟩

end Sys2Proof.Machine
end

section
/-! SUPPORT. The statements of 60_exceptions.md: parameters that have not been fixed, reserved codes, and an idle edge with
nothing offered. -/

namespace Sys2Proof.Machine

open Sys2Proof.Spec

/-- The symbols have no value where a parameter they are computed from has not been fixed (60_exceptions.md R247). -/
theorem mapOutcome_of_unfixed {config : Configuration} (h : config.sync = none ∨ config.lastSymbolMode = none)
    (inter : BitSeq) : mapOutcome config inter = none := by
  unfold mapOutcome
  rcases h with hsync | hmode
  · rw [hsync]
  · rw [hmode]; cases config.sync <;> rfl

/-- ENCODE of a record that packs has an outcome only where the symbols have a value (45_pipeline.md R210). -/
theorem commandOutcome_encode_of_pack_ok {n : Byte} {call : CallBus} {loc : LocBus} {p : Byte} {msg : MsgBus}
    (h : packOutcome n call loc p = .ok msg) (config : Configuration) :
    commandOutcome config (.encode n call loc p) = mapOutcome config (stagedBits msg) := by
  simp only [commandOutcome, h, stagedBits_eq]

theorem step_hold {s : State} (hr : (sampledPorts s).rst = false) (hb : s.hasBeenReset = true)
    (hc : s.control = .idle) (hv : (sampledPorts s).reqValid = false) : step s = .next (afterSampling s) := by
  simp [step, clockEdge, hr, hb, hc, hv]

/-- Settles O24: MAP, and ENCODE once the record has packed, have the outcome of the symbols, which is none here. -/
theorem unfixedConfigurationIsRefused : Obligations.UnfixedConfigurationIsRefused := by
  intro s unfixed
  refine ⟨fun bits => ?_, fun n call loc p c l hc hl => ?_⟩
  · exact exec_of_no_outcome (mapOutcome_of_unfixed unfixed bits)
  · apply exec_of_no_outcome
    rw [commandOutcome_encode_of_pack_ok (packOutcome_of_good hc hl p), mapOutcome_of_unfixed unfixed]

/-- Settles O33: the completing edge answers the outcome of the captured request, which for a reserved code is ILLEGAL_OP. -/
theorem reservedCodeIsIllegalOp : Obligations.ReservedCodeIsIllegalOp := by
  intro s hr hb hc hw hop
  have outcome : requestOutcome (afterSampling s).config (afterSampling s).captured = some (.error .illegalOp) :=
    requestOutcome_of_reserved hop s.config
  obtain ⟨d, hd⟩ := completeEdge_of_outcome outcome
  exact ⟨_, (step_complete hr hb hc hw).trans hd, rfl⟩

/-- Settles O38: holding changes nothing but the ports still to be sampled. -/
theorem idleHoldsEveryRegister : Obligations.IdleHoldsEveryRegister :=
  fun _ hr hb hc hv => step_hold hr hb hc hv

end Sys2Proof.Machine
end

section
/-! SUPPORT. The statements of 70_reset_and_hazards.md: the reset edge, the ports while a command is in flight, the read of
the response, and the host's duties H3 and H4. -/

namespace Sys2Proof.Machine

open Sys2Proof.Spec

theorem step_reset {s : State} (hr : (sampledPorts s).rst = true) : step s = .next (resetEdge (afterSampling s)) := by
  simp [step, clockEdge, hr]

theorem step_before_first_reset {s : State} (hb : s.hasBeenReset = false) (hr : (sampledPorts s).rst = false) :
    step s = .refused .beforeFirstReset := by
  simp [step, clockEdge, hr, hb]

/-- An edge at which a command is in flight looks at no port but `rst` (70_reset_and_hazards.md R271). -/
theorem clockEdge_congr_of_busy {s : State} (hc : s.control = .busy) {p p' : Ports} (hr : p'.rst = p.rst) :
    clockEdge p s = clockEdge p' s := by
  simp only [clockEdge, hr, hc]

/-- The locator check of `issue`, once the string is long enough. -/
theorem locAsAsked_iff {locator : List Byte} (hs : 4 ≤ locator.length) (r : Request) :
    locAsAsked locator r ↔ r.loc = bytesOf (fun k => locator.getD k 0) 32 :=
  (and_iff_right hs).trans (locPresented_iff locator r).symm

/-- A code that reads the locator is refused for one that is not the string's. -/
theorem issue_of_wrong_loc {locator : List Byte} {r : Request} (hl : readsLoc r.op = true) (hs : 4 ≤ locator.length)
    (hw : ¬ locAsAsked locator r) (callsign : List Byte) :
    issue callsign locator r = .error .operandMispresented := by
  have different : (r.loc != bytesOf (fun k => locator.getD k 0) 32) = true :=
    bne_iff_ne.2 fun he => hw ((locAsAsked_iff hs r).2 he)
  simp only [issue, hl, Nat.not_lt.2 hs, different, decide_false, Bool.and_false, Bool.false_eq_true, if_false,
    Bool.and_self, if_true]

/-- With a locator presented as asked wherever it is read, a request is issued or refused by its callsign alone. -/
theorem issue_of_right_loc {locator : List Byte} {r : Request} (h : readsLoc r.op = true → locAsAsked locator r)
    (callsign : List Byte) :
    issue callsign locator r =
      if readsCall r.op && !callPresented callsign r then .error .operandMispresented else .ok r := by
  cases hl : readsLoc r.op with
  | false => exact issue_of_not_readsLoc hl callsign locator
  | true =>
    have long : 4 ≤ locator.length := (h hl).1
    have presented := (locAsAsked_iff long r).1 (h hl)
    simp [issue, presented, Nat.not_lt.2 long]

/-- A code that reads the callsign is refused for one that is not the string's. -/
theorem issue_of_wrong_call {callsign locator : List Byte} {r : Request}
    (h : readsLoc r.op = true → locAsAsked locator r) (hc : readsCall r.op = true) (hw : ¬ callAsAsked callsign r) :
    issue callsign locator r = .error .operandMispresented := by
  have refused : callPresented callsign r = false :=
    Bool.eq_false_iff.2 fun hp => hw ((callPresented_iff callsign r).1 hp)
  rw [issue_of_right_loc h, hc, refused, Bool.not_false, Bool.and_self, if_pos rfl]

/-- Operands presented as asked, wherever they are read, are issued. -/
theorem issue_of_right_operands {callsign locator : List Byte} {r : Request}
    (hl : readsLoc r.op = true → locAsAsked locator r) (hc : readsCall r.op = true → callAsAsked callsign r) :
    issue callsign locator r = .ok r := by
  rw [issue_of_right_loc hl]
  cases hr : readsCall r.op with
  | false => rfl
  | true => rw [(callPresented_iff callsign r).2 (hc hr)]; rfl

/-- Settles O40, by the cases of a step: with no reset and nothing offered only holding is left, for `done` is 0 while BUSY. -/
theorem responseStaysUntilAcceptance : Obligations.ResponseStaysUntilAcceptance := by
  intro s t onlyIdle hd hr hv h
  have notBusy : s.control ≠ .busy := fun hc => Bool.false_ne_true ((onlyIdle hc).symm.trans hd)
  rcases step_next_inv h with ⟨hr', -⟩ | ⟨-, -, hv', -⟩ | rfl | ⟨-, hc, -⟩ | ⟨hc, -⟩
  · exact absurd (hr.symm.trans hr') Bool.false_ne_true
  · exact absurd (hv.symm.trans hv') Bool.false_ne_true
  · exact ⟨rfl, rfl, rfl, rfl⟩
  · exact absurd hc notBusy
  · exact absurd hc notBusy

/-- Settles O53: `issue` checks the locator where it is read, then the callsign where it is read. -/
theorem operandsMustBePresentedAsAsked : Obligations.OperandsMustBePresentedAsAsked := by
  intro callsign locator r
  simp only [← readsLoc_iff]
  refine ⟨fun hl hs hw => issue_of_wrong_loc hl hs hw callsign, fun hop hl hw => ?_, fun hop hw => ?_, fun hl hc => ?_⟩
  · have callCodes : [0, 1, 2] ⊆ [0, 1, 2, 5] := by decide
    exact issue_of_wrong_call (fun _ => hl) ((readsCall_iff r.op).2 (callCodes hop)) hw
  · have noLoc : readsLoc r.op ≠ true := by rw [Ne, readsLoc_iff, hop]; decide
    have call : readsCall r.op = true := by rw [readsCall_iff, hop]; decide
    exact issue_of_wrong_call (fun hl => absurd hl noLoc) call hw
  · exact issue_of_right_operands hl fun h => hc ((readsCall_iff r.op).1 h)

/-- Settles O35: reset comes first at an edge, whatever the state. -/
theorem resetEdgeGivesResetValues : Obligations.ResetEdgeGivesResetValues := by
  intro s hr
  refine ⟨_, step_reset hr, rfl, rfl, rfl, rfl, rfl, rfl, rfl, ?_⟩
  rw [reqReady, hr, Bool.not_true, Bool.and_false]

/-- Settles O37: the reset edge makes the block idle, and an idle block accepts the request offered at the next edge. -/
theorem bootNeedsResetEdge : Obligations.BootNeedsResetEdge := by
  refine ⟨fun s hb hr => step_before_first_reset hb hr, fun config n first second later hfirst hsecond hv => ?_⟩
  refine ⟨_, _, step_reset hfirst, ?_, rfl, step_accept hsecond rfl rfl hv, rfl, rfl, rfl⟩
  rw [reqReady, hsecond]
  rfl

/-- Settles O39: the ports sampled at this edge are read for `rst` alone and then spent. -/
theorem busyIgnoresPorts : Obligations.BusyIgnoresPorts :=
  fun s _ _ later hc hr => clockEdge_congr_of_busy (s := { s with inputs := later }) hc hr

/-- Settles O45: the read looks at `hasBeenReset` first and then at `done`. -/
theorem staleReadIsRefused : Obligations.StaleReadIsRefused := by
  intro s
  refine ⟨fun hb => ?_, fun hb hd => ?_, fun hb hd => ?_⟩
  · simp [readResponse, hb]
  · simp [readResponse, hb, hd]
  · simp [readResponse, hb, hd]

end Sys2Proof.Machine
end

section
/-! SUPPORT. The source's worked example (95_test_vectors.md W1): every symbol that ENCODE answers for a message in closed
form, and its evaluation for VK3XE QF22 23. -/

namespace Sys2Proof.Machine

open Sys2Proof.Spec

/-- Coded bit `b` of the input bits `u`: step `b / 2` of POLY0 at even `b`, of POLY1 at odd `b`
(42_convolutional_encoder.md R157). -/
def codedTap (u : Nat → Bool) (b : Nat) : Bool := tap (if b % 2 = 0 then 0xF2D05351 else 0xE4613C47) u (b / 2)

theorem getLsbD_convResult_eq_codedTap (msg : MsgBus) {b : Nat} (hb : b < 162) :
    (convResult msg).getLsbD b = codedTap (messageBit msg) b := by
  unfold codedTap
  split
  · rw [← getLsbD_convResult_even msg (by omega), Nat.mul_div_cancel' (by omega)]
  · rw [← getLsbD_convResult_odd msg (by omega), show 2 * (b / 2) + 1 = b by omega]

/-- Symbol `q` carries coded bit INV[q] (43_channel_interleaver.md R176, 45_pipeline.md R210). -/
theorem symbolAt_mapResult_stagedBits (mode : LastSymbolMode) (sync : BitSeq) (msg : MsgBus) {q : Nat} (hq : q < 162) :
    symbolAt (mapResult mode sync (stagedBits msg)) q = symbol mode sync q (codedTap (messageBit msg) (inv q)) := by
  have bit := getLsbD_stagedBits_perm msg (inv_lt q hq)
  rw [perm_inv q hq] at bit
  rw [symbolAt_mapResult mode sync _ hq, bit, getLsbD_convResult_eq_codedTap msg (inv_lt q hq)]

theorem packOutcome_of_ok {n : Byte} {call : CallBus} {loc : LocBus} {N m1 : Nat} (hN : callInteger n call = .ok N)
    (hm : locatorIndex loc = .ok m1) (p : Byte) :
    packOutcome n call loc p = .ok (packMessage (BitVec.ofNat 28 N) (BitVec.ofNat 22 (powerInteger m1 p))) := by
  simp only [packOutcome, hN, hm]

/-- The first twelve symbols of N = 223674830 and m = 398423 (95_test_vectors.md W1). -/
theorem first_symbols_of_vk3xe :
    (List.range 12).map (fun q => (symbol .merge refSync q (codedTap (recordBit 223674830 398423) (inv q))).toNat) =
      [3, 3, 0, 2, 0, 2, 0, 2, 1, 2, 2, 0] := by decide +kernel

/-- Settles O27: the operands evaluate to N and m1, whence m; the symbols are the closed form of N and m. -/
theorem sourceExampleVk3xe : Obligations.SourceExampleVk3xe := by
  have hN : callInteger 6#8 (text 48 [0x56, 0x4B, 0x33, 0x58, 0x45, 0x20]) = .ok 223674830 := by decide +kernel
  have hm1 : locatorIndex (text 32 [0x51, 0x46, 0x32, 0x32]) = .ok 3112 := by decide +kernel
  have input : messageBit (packMessage (BitVec.ofNat 28 223674830) (BitVec.ofNat 22 398423)) =
      recordBit 223674830 398423 := messageBit_packMessage (by decide) (by decide)
  obtain ⟨d, encoded⟩ := exec_encode_of_pack_ok (s := State.reset) (packOutcome_of_ok hN hm1 23#8) rfl rfl
  refine ⟨⟨_, exec_encCall_of_ok hN _⟩, ⟨_, exec_encM1_of_ok hm1 _⟩, ⟨_, exec_encM_of_ok hm1 23#8 _⟩, _, d, encoded, ?_⟩
  refine Eq.trans (List.map_congr_left fun q hq => ?_) first_symbols_of_vk3xe
  have inRange : q < 162 := Nat.lt_trans (List.mem_range.1 hq) (by decide)
  exact congrArg BitVec.toNat (input ▸ symbolAt_mapResult_stagedBits .merge refSync _ inRange)

end Sys2Proof.Machine
end
